-- ==== Sys2Proof/Word.lean ====
section
/-! DEFINITION. The machine word, addresses and register numbers (00_scope.md rules R9, R10; 10_state.md rule R20). -/

namespace Sys2Proof

/-- A word: 16 bits, bit 0 the least significant (rules R9, R10). An address an instruction can name is a word too (rule R50). -/
abbrev Word := BitVec 16

/-- A register number, 0 to 15 (rule R20). -/
abbrev Reg := Fin 16

end Sys2Proof
end

