-- ==== Sys2Proof/Config.lean ====
section
/-! DEFINITION. The launch parameters of 00_scope.md rule R8 as one record of plain data, and the free value of the model:
what the host answers to a console input request. The spec's default of each parameter is Machine/Defaults.lean. -/

namespace Sys2Proof

/-- The instruction kinds an opcode value can select (30_encoding.md rule R85). The four conditional jumps are one kind,
told apart by the condition field (rule R86). HALT is no kind: it is a whole word, tested before dispatch (rule R84). -/
inductive Kind where
  | jmp | jcc | ldr | str | mov | add | addi | sub | subi | and | or | shr | shl | cmp | push | pop
  deriving DecidableEq, Repr

/-- `OPCODE_MAP`: a partial function from the sixteen opcode values to the kinds (rule R85), entry by entry. -/
abbrev OpcodeMap := Vector (Option Kind) 16

/-- The first opcode value that a map gives to a kind, if there is one. -/
def OpcodeMap.opcodeOf (m : OpcodeMap) (k : Kind) : Option (BitVec 4) :=
  ((List.finRange 16).find? fun op => m[op] == some k).map fun op => BitVec.ofFin op

/-- `R15_ACCESS`: what an operand field that names the program counter means (10_state.md rule R23, decision D3). -/
inductive R15Access where
  /-- The spec's `alias`: the register is an ordinary cell of the register file. -/
  | aliased
  /-- The spec's `refuse`: such an instruction has no meaning in the model. -/
  | refuse
  deriving DecidableEq, Repr

/-- `EA_OVERFLOW`: an effective address sum outside 0..0xFFFF (44_memory_access.md rule R200, decision D16). -/
inductive EaOverflow where
  | fault | wrap
  deriving DecidableEq, Repr

/-- `SHIFT_AMOUNT`: how the imm4 of SHR and SHL becomes a count (30_encoding.md rule R92, decision D18). -/
inductive ShiftAmount where
  | zext | refuseHigh
  deriving DecidableEq, Repr

/-- `IMM_CARRY`: Carry of ADDI and SUBI with a negative immediate (41_alu.md rule R131, decision D19). -/
inductive ImmCarry where
  | adder16 | integer
  deriving DecidableEq, Repr

/-- The parameters of rule R8, fixed at launch for the whole run (70_reset_and_hazards.md rule R283). -/
structure Params where
  /-- `MEM_WORDS`, the N of the rules: physical memory is cells 0..N-1. -/
  memWords : Nat
  /-- `SP_INDEX` (rule R22). -/
  spIndex : Reg
  /-- `PC_INDEX` (rule R21). -/
  pcIndex : Reg
  r15Access : R15Access
  /-- `SP_RESET`. -/
  spReset : Word
  /-- `INIT_GPR`: the initial general registers (the entries of the stack pointer and the program counter are not read). -/
  initGpr : Vector Word 16
  /-- `INIT_FLAGS`, Zero. -/
  initZ : Bool
  /-- `INIT_FLAGS`, Carry. -/
  initC : Bool
  opcodeMap : OpcodeMap
  ioCharIn : Word
  ioCharOut : Word
  ioIntIn : Word
  ioIntOut : Word
  eaOverflow : EaOverflow
  shiftAmount : ShiftAmount
  immCarry : ImmCarry
  /-- `BREAKPOINTS`: the program-counter values that pause the engine (rule R33). -/
  breakpoints : List Word
  deriving DecidableEq, Repr

/-- The four port addresses (20_memory.md rule R56). -/
def Params.ports (p : Params) : List Word := [p.ioCharIn, p.ioCharOut, p.ioIntIn, p.ioIntOut]

/-- A parameter record the spec admits: 1 ≤ N ≤ 0xFFFC (rule R8, decision D8); the stack pointer and the program counter
are two registers (rules R21, R22); the four ports are the four highest addresses in some order (rule R56). -/
def Params.wf (p : Params) : Bool :=
  decide (1 ≤ p.memWords) && decide (p.memWords ≤ 0xFFFC) && decide (p.spIndex ≠ p.pcIndex) &&
    decide p.ports.Nodup && p.ports.all fun a => decide (0xFFFC ≤ a.toNat)

/-- The word the host answers to its n-th console input request when State holds no answer for it: any 16-bit word, also
at the end of the host's input (20_memory.md rules R57, R58, decision D14). A free value: it has no body, so no proof can
see what it is. Assumption log entry 10. -/
opaque Config.hostAnswer : Nat → Word

end Sys2Proof
end

