-- ==== Sys2Proof/Syntax.lean ====
section
/-! DEFINITION. The instructions, one constructor per row of spec/opcode_table.json (30_encoding.md rules R82 to R95).
A term carries every field of the instruction's format, the ignored ones of CMP, PUSH and POP too (rule R97), so that a
word and its instruction hold the same bits. Immediates are the field's bits; Machine/Operands.lean gives their values. -/

namespace Sys2Proof

inductive Instr where
  | jmp (imm12 : BitVec 12)
  | jeq (imm10 : BitVec 10)
  | jne (imm10 : BitVec 10)
  | jlt (imm10 : BitVec 10)
  | jge (imm10 : BitVec 10)
  | ldr (rd rm : Reg) (imm4 : BitVec 4)
  | str (rs rm : Reg) (imm4 : BitVec 4)
  | mov (rd : Reg) (imm8 : BitVec 8)
  | add (rd rm rn : Reg)
  | addi (rd rm : Reg) (imm4 : BitVec 4)
  | sub (rd rm rn : Reg)
  | subi (rd rm : Reg) (imm4 : BitVec 4)
  | and (rd rm rn : Reg)
  | or (rd rm rn : Reg)
  | shr (rd rm : Reg) (imm4 : BitVec 4)
  | shl (rd rm : Reg) (imm4 : BitVec 4)
  /-- `ignored` is w[15:12] (rule R88). -/
  | cmp (ignored : BitVec 4) (rm rn : Reg)
  /-- `ignored` is w[11:4] (rule R95). -/
  | push (rs : Reg) (ignored : BitVec 8)
  /-- `ignored` is w[11:4] (rule R95). -/
  | pop (rd : Reg) (ignored : BitVec 8)
  | halt
  deriving DecidableEq, Repr

/-- The kind whose opcode an instruction is dispatched by; HALT has none (rules R84, R85). -/
def Instr.kind : Instr → Option Kind
  | .jmp _ => some .jmp
  | .jeq _ => some .jcc
  | .jne _ => some .jcc
  | .jlt _ => some .jcc
  | .jge _ => some .jcc
  | .ldr _ _ _ => some .ldr
  | .str _ _ _ => some .str
  | .mov _ _ => some .mov
  | .add _ _ _ => some .add
  | .addi _ _ _ => some .addi
  | .sub _ _ _ => some .sub
  | .subi _ _ _ => some .subi
  | .and _ _ _ => some .and
  | .or _ _ _ => some .or
  | .shr _ _ _ => some .shr
  | .shl _ _ _ => some .shl
  | .cmp _ _ _ => some .cmp
  | .push _ _ => some .push
  | .pop _ _ => some .pop
  | .halt => none

end Sys2Proof
end

