-- ==== Sys2Proof/WellFormed.lean ====
section
/-! DEFINITION. Which instructions have a word under an opcode map. The types of the fields already bound every register
number and immediate. Two things can still fail: the map gives the instruction's kind no opcode (30_encoding.md rules R85,
R98), or the fields and the opcode are all ones, which is the word of HALT (rule R84; 45_stack.md rule R222). -/

namespace Sys2Proof

/-- The bits 15..4 of the instruction's word are all ones. JEQ, JNE and JLT have a condition field with a 0 in it. -/
def Instr.fieldsAllOnes : Instr → Bool
  | .jmp imm12 => imm12 == 0xFFF
  | .jeq _ => false
  | .jne _ => false
  | .jlt _ => false
  | .jge imm10 => imm10 == 0x3FF
  | .ldr rd rm imm4 => rd == 15 && rm == 15 && imm4 == 0xF
  | .str rs rm imm4 => rs == 15 && rm == 15 && imm4 == 0xF
  | .mov rd imm8 => rd == 15 && imm8 == 0xFF
  | .add rd rm rn => rd == 15 && rm == 15 && rn == 15
  | .addi rd rm imm4 => rd == 15 && rm == 15 && imm4 == 0xF
  | .sub rd rm rn => rd == 15 && rm == 15 && rn == 15
  | .subi rd rm imm4 => rd == 15 && rm == 15 && imm4 == 0xF
  | .and rd rm rn => rd == 15 && rm == 15 && rn == 15
  | .or rd rm rn => rd == 15 && rm == 15 && rn == 15
  | .shr rd rm imm4 => rd == 15 && rm == 15 && imm4 == 0xF
  | .shl rd rm imm4 => rd == 15 && rm == 15 && imm4 == 0xF
  | .cmp ignored rm rn => ignored == 0xF && rm == 15 && rn == 15
  | .push rs ignored => rs == 15 && ignored == 0xFF
  | .pop rd ignored => rd == 15 && ignored == 0xFF
  | .halt => true

/-- The instruction has a word of its own under the opcode map `m`. -/
def Instr.wellFormed (m : OpcodeMap) (i : Instr) : Bool :=
  match i.kind with
  | none => true
  | some k =>
    match m.opcodeOf k with
    | none => false
    | some op => !(op == 0xF && i.fieldsAllOnes)

end Sys2Proof
end

