-- ==== Sys2Proof/Decode.lean ====
section
/-! DEFINITION. The instruction word (30_encoding.md rules R80 to R98): the eager field unpacker, the decoder, total on
every word and every opcode map, and the encoder. -/

namespace Sys2Proof

/-- Every field of every word, "whatever the opcode" (rule R82). -/
structure Fields where
  op : BitVec 4
  rd : Reg
  rm : Reg
  rn : Reg
  /-- w[15:12] as bits, for CMP, which ignores it. -/
  hi4 : BitVec 4
  imm4 : BitVec 4
  imm8 : BitVec 8
  imm10 : BitVec 10
  imm12 : BitVec 12
  cond : BitVec 2
  deriving DecidableEq, Repr

/-- The table of rule R82. -/
def unpack (w : Word) : Fields where
  op := w.extractLsb' 0 4
  rd := (w.extractLsb' 12 4).toFin
  rm := (w.extractLsb' 8 4).toFin
  rn := (w.extractLsb' 4 4).toFin
  hi4 := w.extractLsb' 12 4
  imm4 := w.extractLsb' 4 4
  imm8 := w.extractLsb' 4 8
  imm10 := w.extractLsb' 4 10
  imm12 := w.extractLsb' 4 12
  cond := w.extractLsb' 14 2

/-- The conditional jump a condition code selects (rule R86). -/
def condJump (cond : BitVec 2) (imm10 : BitVec 10) : Instr :=
  match (cond.toFin : Fin 4) with
  | 0 => .jeq imm10
  | 1 => .jne imm10
  | 2 => .jlt imm10
  | 3 => .jge imm10

/-- The instruction of a kind, from the fields its format uses (rules R87 to R95). -/
def build (k : Kind) (f : Fields) : Instr :=
  match k with
  | .jmp => .jmp f.imm12
  | .jcc => condJump f.cond f.imm10
  | .ldr => .ldr f.rd f.rm f.imm4
  | .str => .str f.rd f.rm f.imm4
  | .mov => .mov f.rd f.imm8
  | .add => .add f.rd f.rm f.rn
  | .addi => .addi f.rd f.rm f.imm4
  | .sub => .sub f.rd f.rm f.rn
  | .subi => .subi f.rd f.rm f.imm4
  | .and => .and f.rd f.rm f.rn
  | .or => .or f.rd f.rm f.rn
  | .shr => .shr f.rd f.rm f.imm4
  | .shl => .shl f.rd f.rm f.imm4
  | .cmp => .cmp f.hi4 f.rm f.rn
  | .push => .push f.rd f.imm8
  | .pop => .pop f.rd f.imm8

/-- The kind a map gives to an opcode value (rule R85). -/
def OpcodeMap.kindOf (m : OpcodeMap) (op : BitVec 4) : Option Kind := m[(op.toFin : Reg)]

/-- Why a word has no instruction: the opcode map leaves its opcode undefined (rules R98, R117). -/
inductive DecodeError where
  | unknownInstruction (w : Word)
  deriving DecidableEq, Repr

/-- The word of HALT, "the literal all-ones word" (rule R84). -/
def haltWord : Word := 0xFFFF

/-- The decoder: HALT before the opcode, then the opcode map (rules R84, R85; 40_cycle.md rules R115 to R117). -/
def decode (m : OpcodeMap) (w : Word) : Except DecodeError Instr :=
  if w = haltWord then .ok .halt
  else
    match m.kindOf (unpack w).op with
    | none => .error (.unknownInstruction w)
    | some k => .ok (build k (unpack w))

/-- The default `OPCODE_MAP` (rule R85, decision D1). -/
def standardOpcodeMap : OpcodeMap :=
  #v[some .jmp, some .jcc, some .ldr, some .str, some .mov, some .add, some .addi, some .sub,
     some .subi, some .and, some .or, some .shr, some .shl, some .cmp, some .push, some .pop]

/-- Three 4-bit fields, the first in w[15:12] (formats RR, CR, RI and M of rule R83). -/
def nibbles (a b c : BitVec 4) : BitVec 12 := a ++ b ++ c

/-- A condition code and an offset (format JC of rule R83). -/
def condBits (cond : BitVec 2) (imm10 : BitVec 10) : BitVec 12 := cond ++ imm10

/-- A register field and eight more bits (formats MI and S of rule R83). -/
def regByte (r : BitVec 4) (b : BitVec 8) : BitVec 12 := r ++ b

/-- The word of the operand bits and the opcode, which is in bits 3..0 (rule R81). -/
def joinWord (operands : BitVec 12) (op : BitVec 4) : Word := operands ++ op

/-- The bits of a register number. -/
def regBits (r : Reg) : BitVec 4 := BitVec.ofFin r

/-- The bits 15..4 of the instruction's word (the formats of rule R83). -/
def operandBits : Instr → BitVec 12
  | .jmp imm12 => imm12
  | .jeq imm10 => condBits 0b00 imm10
  | .jne imm10 => condBits 0b01 imm10
  | .jlt imm10 => condBits 0b10 imm10
  | .jge imm10 => condBits 0b11 imm10
  | .ldr rd rm imm4 => nibbles (regBits rd) (regBits rm) imm4
  | .str rs rm imm4 => nibbles (regBits rs) (regBits rm) imm4
  | .mov rd imm8 => regByte (regBits rd) imm8
  | .add rd rm rn => nibbles (regBits rd) (regBits rm) (regBits rn)
  | .addi rd rm imm4 => nibbles (regBits rd) (regBits rm) imm4
  | .sub rd rm rn => nibbles (regBits rd) (regBits rm) (regBits rn)
  | .subi rd rm imm4 => nibbles (regBits rd) (regBits rm) imm4
  | .and rd rm rn => nibbles (regBits rd) (regBits rm) (regBits rn)
  | .or rd rm rn => nibbles (regBits rd) (regBits rm) (regBits rn)
  | .shr rd rm imm4 => nibbles (regBits rd) (regBits rm) imm4
  | .shl rd rm imm4 => nibbles (regBits rd) (regBits rm) imm4
  | .cmp ignored rm rn => nibbles ignored (regBits rm) (regBits rn)
  | .push rs ignored => regByte (regBits rs) ignored
  | .pop rd ignored => regByte (regBits rd) ignored
  | .halt => 0xFFF

/-- The encoder: the word of an instruction under an opcode map, if the map gives its kind an opcode. -/
def encode (m : OpcodeMap) (i : Instr) : Option Word :=
  match i.kind with
  | none => some haltWord
  | some k => (m.opcodeOf k).map fun op => joinWord (operandBits i) op

/-- The instruction the decoder reads, under the default opcode map, from an instruction whose bits are `w`, `nbits` of
them (every instruction is one 16-bit word, rule R80; the bits above `nbits` are 0). -/
def decodeTableWord (nbits w : Nat) : Option Instr :=
  (decode standardOpcodeMap (BitVec.ofNat 16 (w % 2 ^ nbits))).toOption

end Sys2Proof
end

