-- ==== Sys2Proof/Machine/Defaults.lean ====
section
/-! DEFINITION. The value of each launch parameter that the spec's own decisions give as its default (00_scope.md rule R8),
and N = 0x0100, the value the spec's test vectors use where N is open (decision D8). -/

namespace Sys2Proof.Machine

/-- N of the test vectors (95_test_vectors.md). The spec leaves N open: assumption log entry 3. -/
def standardMemWords : Nat := 0x0100

/-- The default column of rule R8's table. -/
def standardParams : Params where
  memWords := standardMemWords
  spIndex := 14
  pcIndex := 15
  r15Access := .aliased
  spReset := BitVec.ofNat 16 standardMemWords
  initGpr := Vector.replicate 16 0
  initZ := false
  initC := false
  opcodeMap := standardOpcodeMap
  ioCharIn := 0xFFFC
  ioCharOut := 0xFFFD
  ioIntIn := 0xFFFE
  ioIntOut := 0xFFFF
  eaOverflow := .fault
  shiftAmount := .zext
  immCarry := .adder16
  breakpoints := []

end Sys2Proof.Machine
end

