-- ==== Sys2Proof/Machine/State.lean ====
section
/-! DEFINITION. The state of the engine (10_state.md rules R20 to R39), the reasons a step can stop, and the state after
reset (rule R38; 70_reset_and_hazards.md rule R280). -/

namespace Sys2Proof.Machine

/-- A console event (20_memory.md rules R57 to R60). -/
inductive IoEvent where
  | charIn (v : Word)
  | intIn (v : Word)
  | charOut (v : Word)
  | intOut (v : Word)
  deriving DecidableEq, Repr

/-- Whether the run goes on or HALT has ended it (46_halt.md rule R235). No program can read it (rule R32).
Assumption log entry 8. -/
inductive RunStatus where
  | running | halted
  deriving DecidableEq, Repr

/-- Physical memory by word address, only the cells that are not 0, addresses strictly rising (rule R37; the form is
Memory.wf of Machine/Ops.lean). A cell that is not listed is 0, the spec's "initialized default (zero)". The unit is the
word, the smallest the machine addresses (20_memory.md rules R51 to R53). Assumption log entry 1. -/
abbrev Memory := List (Nat × Word)

structure State where
  /-- R0..R15, the stack pointer and the program counter among them (rules R20 to R22). -/
  regs : Vector Word 16
  /-- The Zero flag (rule R27). -/
  z : Bool
  /-- The Carry flag (rule R27). -/
  c : Bool
  /-- The memory array (rule R37). -/
  mem : Memory
  /-- The access bitmap, as the rising list of the addresses whose bit is set (rule R30). -/
  marked : List Nat
  /-- The console trace, oldest event first (rule R34). -/
  trace : List IoEvent
  /-- The instruction register (rule R31). -/
  ir : Word
  status : RunStatus
  /-- The program counters at which the engine paused for the host, oldest first (60_exceptions.md rule R262).
  The model's own record of the breakpoint channel: assumption log entry 11. -/
  pauses : List Word
  /-- The host's answers to the console input requests to come, the next one first (60_exceptions.md rule R263).
  Assumption log entry 10. -/
  answers : List Word
  /-- How many console input requests have been answered. The model's own counter: assumption log entry 10. -/
  draws : Nat
  /-- How many cycles have begun (70_reset_and_hazards.md rule R287). No program can read it. -/
  cycles : Nat
  /-- The launch parameters, which no step changes (rule R283). Assumption log entry 2. -/
  params : Params
  deriving DecidableEq, Repr

/-- The kind of a memory access (60_exceptions.md rule R252). -/
inductive Access where
  | fetch | load | store | push | pop
  deriving DecidableEq, Repr

/-- The fatal conditions (60_exceptions.md rule R251). Each carries the record of rule R255 and the state that
`Faulted(info, state)` of rules R257 and R258 carries. -/
inductive Fault where
  /-- Raised by the fetch, LDR, STR, PUSH and POP at an address outside physical memory (rule R252). Safe: the spec ends
  the run here too. -/
  | memoryViolation (access : Access) (instrAddr : Word) (addr : Int) (final : State)
  /-- Raised by the decoder for a word whose opcode the opcode map leaves undefined (rule R253). Safe: the spec ends the
  run here too. -/
  | unknownInstruction (instrAddr : Word) (ir : Word) (final : State)
  /-- Raised by LDR from an output port and STR to an input port (rule R254, decision D13). Safe: the source does not
  describe the access and the spec ends the run. -/
  | ioDirection (access : Access) (instrAddr : Word) (port : Word) (final : State)
  deriving DecidableEq, Repr

/-- Where the model gives no meaning. -/
inductive Refusal where
  /-- Raised by exec's arm of an instruction that has no meaning yet. No arm does. Safe. -/
  | notModelled (mnemonic : String)
  /-- Raised by the cycle, only under `R15_ACCESS` = `refuse`, for an instruction that names the program counter in a
  register field it uses (40_cycle.md rule R118). Safe: the spec refuses it. -/
  | pcOperand
  /-- Raised by SHR and SHL, only under `SHIFT_AMOUNT` = `refuse_high`, for a count field 8..15 (30_encoding.md rule R92).
  Safe: the spec refuses it. -/
  | shiftCountHigh
  /-- Raised by launch for an image with an address at or above N (70_reset_and_hazards.md rule R282) or with one address
  twice (assumption log entry 22). Safe: the spec refuses the first, and gives the second no meaning. -/
  | invalidImage
  /-- Raised by launch for a parameter record outside the bounds of Params.wf (00_scope.md rule R8). Safe. -/
  | invalidParams
  deriving DecidableEq, Repr

/-- What a meaning and a step answer. -/
abbrev Result := Host.Outcome State Fault Refusal

/-- The state of rule R38 for given launch parameters, before the launch image is placed. -/
def State.resetWith (p : Params) : State where
  regs := (p.initGpr.set p.spIndex p.spReset).set p.pcIndex 0
  z := p.initZ
  c := p.initC
  mem := []
  marked := []
  trace := []
  ir := 0
  status := .running
  pauses := []
  answers := []
  draws := 0
  cycles := 0
  params := p

/-- The state after reset under the default parameters (rule R38). -/
def State.reset : State := State.resetWith standardParams

end Sys2Proof.Machine
end

