-- ==== Sys2Proof/Machine/Ops.lean ====
section
/-! DEFINITION. The named operations over registers, memory, the access bitmap and the console (00_scope.md rule R11),
and the one operation that raises a fatal condition (60_exceptions.md rules R251 to R257). The engine has no trap
mechanism, no handler and no return from one (rules R250, R259). -/

namespace Sys2Proof.Machine

/-! ### Registers (10_state.md rules R20 to R26) -/

/-- `x[r]`. -/
def State.readReg (s : State) (r : Reg) : Word := s.regs[r]

/-- `x[r] <- v`. No register is hardwired (rule R20). -/
def State.writeReg (s : State) (r : Reg) (v : Word) : State := { s with regs := s.regs.set r v }

/-- `pc` (rule R21). -/
def State.pc (s : State) : Word := s.readReg s.params.pcIndex

/-- `pc <- target`. -/
def State.setPc (s : State) (target : Word) : State := s.writeReg s.params.pcIndex target

/-- `sp` (rule R22). -/
def State.sp (s : State) : Word := s.readReg s.params.spIndex

/-- `sp <- v`. -/
def State.setSp (s : State) (v : Word) : State := s.writeReg s.params.spIndex v

/-- `Z <- b`. -/
def State.setZ (s : State) (b : Bool) : State := { s with z := b }

/-- `C <- b`. -/
def State.setC (s : State) (b : Bool) : State := { s with c := b }

/-- The address of the instruction that executes: the program counter was incremented after the fetch and no instruction
writes it before it raises a fault (40_cycle.md rules R114, R119). Assumption log entry 14. -/
def State.instrAddr (s : State) : Word := s.pc - 1

/-! ### Memory (20_memory.md rules R51, R63; 10_state.md rule R37) -/

/-- What a cell that is not listed reads as (rule R37). -/
def Memory.unlisted : Word := 0

/-- The word in cell `a`. -/
def Memory.read (m : Memory) (a : Nat) : Word :=
  match m with
  | [] => Memory.unlisted
  | (k, v) :: rest => if k = a then v else Memory.read rest a

/-- Puts a cell in its place in a rising list. -/
def Memory.insert (m : Memory) (a : Nat) (v : Word) : Memory :=
  match m with
  | [] => [(a, v)]
  | (k, u) :: rest => if a < k then (a, v) :: (k, u) :: rest else (k, u) :: Memory.insert rest a v

/-- Cell `a` no longer listed. -/
def Memory.erase (m : Memory) (a : Nat) : Memory := m.filter fun cell => cell.1 != a

/-- Writes the word `v` to cell `a`. A cell that holds what an unlisted one reads as is not listed. -/
def Memory.write (m : Memory) (a : Nat) (v : Word) : Memory :=
  if v = Memory.unlisted then m.erase a else (m.erase a).insert a v

/-- The canonical form: addresses strictly rising, no cell listed that holds what an unlisted one reads as. -/
abbrev Memory.wf (m : Memory) : Prop :=
  m.Pairwise (fun x y => x.1 < y.1) ∧ ∀ cell ∈ m, cell.2 ≠ Memory.unlisted

/-- `MemRead(a, 1)`. -/
def State.readCell (s : State) (a : Nat) : Word := s.mem.read a

/-- `MemWrite(a, 1, v)`. -/
def State.writeCell (s : State) (a : Nat) (v : Word) : State := { s with mem := s.mem.write a v }

/-- Cell `a` exists: the bound check of rule R63. -/
def State.inMemory (s : State) (a : Nat) : Bool := decide (a < s.params.memWords)

/-! ### The access bitmap (10_state.md rule R30) -/

/-- Sets bit `a` in the rising list of the bits that are set. -/
def markBit (bits : List Nat) (a : Nat) : List Nat :=
  match bits with
  | [] => [a]
  | k :: rest => if a < k then a :: k :: rest else if a = k then k :: rest else k :: markBit rest a

/-- `Mark(a)`. -/
def State.mark (s : State) (a : Nat) : State := { s with marked := markBit s.marked a }

/-! ### The console (20_memory.md rules R57 to R60; 60_exceptions.md rule R263) -/

/-- `trace <- trace ++ [e]`. -/
def State.emit (s : State) (e : IoEvent) : State := { s with trace := s.trace ++ [e] }

/-- `IoIn`: the word the host answers to the next input request. It is the next answer State holds, or a free value. -/
def State.nextAnswer (s : State) : Word := s.answers.headD (Config.hostAnswer s.draws)

/-- The input request is answered: "A read of IO_CHAR_IN or IO_INT_IN consumes host input" (rule R66). -/
def State.takeAnswer (s : State) : State := { s with answers := s.answers.tail, draws := s.draws + 1 }

/-! ### The cycle's own state -/

/-- `IR <- w` (40_cycle.md rule R113). -/
def State.setIr (s : State) (w : Word) : State := { s with ir := w }

/-- A cycle has begun (70_reset_and_hazards.md rule R287). -/
def State.countCycle (s : State) : State := { s with cycles := s.cycles + 1 }

/-- The engine pauses at its program counter and the host resumes it: nothing but the record of the pause changes
(60_exceptions.md rule R262). -/
def State.pause (s : State) : State := { s with pauses := s.pauses ++ [s.pc] }

/-- HALT ends the run (46_halt.md rule R235). -/
def State.halt (s : State) : State := { s with status := .halted }

/-! ### Fatal conditions (60_exceptions.md rules R251 to R257) -/

/-- What a fatal condition records beside its instruction address (rule R255). -/
inductive Cause where
  | memoryViolation (access : Access) (addr : Int)
  | unknownInstruction (ir : Word)
  | ioDirection (access : Access) (port : Word)
  deriving DecidableEq, Repr

/-- `raise Fault(kind, info)` at instruction address `a`: the run ends with state `s`, to which nothing of the
instruction's execute has been done (rules R119, R257). -/
def raiseAt {α : Type} (a : Word) (cause : Cause) (s : State) : Host.Outcome α Fault Refusal :=
  match cause with
  | .memoryViolation access addr => .fault (.memoryViolation access a addr s)
  | .unknownInstruction ir => .fault (.unknownInstruction a ir s)
  | .ioDirection access port => .fault (.ioDirection access a port s)

/-- `raiseAt` for the instruction that executes. -/
def raise (cause : Cause) (s : State) : Result := raiseAt s.instrAddr cause s

/-- The code of a fatal condition (rule R251). -/
def Fault.code : Fault → Nat
  | .memoryViolation _ _ _ _ => 1
  | .unknownInstruction _ _ _ => 2
  | .ioDirection _ _ _ _ => 3

/-- The instruction address a fault records (rule R255). -/
def Fault.instrAddr : Fault → Word
  | .memoryViolation _ a _ _ => a
  | .unknownInstruction a _ _ => a
  | .ioDirection _ a _ _ => a

/-- The state a fault carries (rule R258). -/
def Fault.final : Fault → State
  | .memoryViolation _ _ _ s => s
  | .unknownInstruction _ _ s => s
  | .ioDirection _ _ _ s => s

end Sys2Proof.Machine
end

