-- ==== Sys2Proof/Machine/Operands.lean ====
section
/-! DEFINITION. The operand forms: immediates (00_scope.md rule R10, 30_encoding.md rule R96), shift counts (rule R92),
jump targets (43_control.md rule R180), effective addresses and what lies at them (44_memory_access.md rule R200;
20_memory.md rules R55 to R63), and the register fields an instruction uses (40_cycle.md rule R118). -/

namespace Sys2Proof.Machine

/-- `simm_N(v) = (v XOR m) - m` with `m = 2^(N-1)`, the source's decode_immediate (rule R10). -/
def simm {n : Nat} (v : BitVec n) : Int := ((v.toNat ^^^ 2 ^ (n - 1) : Nat) : Int) - 2 ^ (n - 1)

/-- `sext_N(v) = simm_N(v) mod 2^16` (rule R10). -/
def sext {n : Nat} (v : BitVec n) : Word := BitVec.ofInt 16 (simm v)

/-- `uint(zext_4(imm4))`, the count of SHR and SHL (rule R92). -/
def shiftCount (imm4 : BitVec 4) : Nat := (imm4.zeroExtend 16).toNat

/-- With `SHIFT_AMOUNT` = `refuse_high`, a count field with bit 3 set is refused (rule R92). -/
def shiftRefused (p : Params) (imm4 : BitVec 4) : Bool :=
  match p.shiftAmount with
  | .zext => false
  | .refuseHigh => imm4.getLsbD 3

/-- The target of a taken jump, `(uint(pc) + offset) mod 2^16` (rule R180). -/
def jumpTarget (pc : Word) (offset : Int) : Word := BitVec.ofInt 16 ((pc.toNat : Int) + offset)

/-- The effective address of LDR and STR (rule R200): the exact sum, or under `EA_OVERFLOW` = `wrap` the sum mod 2^16. -/
def effectiveAddress (p : Params) (base : Word) (imm4 : BitVec 4) : Int :=
  let ea := (base.toNat : Int) + simm imm4
  match p.eaOverflow with
  | .fault => ea
  | .wrap => ea % 65536

/-- What lies at an effective address, for LDR and STR. -/
inductive Place where
  | cell (a : Nat)
  | charIn | charOut | intIn | intOut
  /-- No address, or an address at or above N that is no port. -/
  | outside
  deriving DecidableEq, Repr

/-- The order of rule R200: overflow, then the ports, then the bound check (rules R62, R63). -/
def placeOf (p : Params) (ea : Int) : Place :=
  if ea < 0 ∨ 0xFFFF < ea then .outside
  else if ea = p.ioCharIn.toNat then .charIn
  else if ea = p.ioIntIn.toNat then .intIn
  else if ea = p.ioCharOut.toNat then .charOut
  else if ea = p.ioIntOut.toNat then .intOut
  else if ea.toNat < p.memWords then .cell ea.toNat
  else .outside

/-- The registers in the register fields an instruction uses (the formats of 30_encoding.md rule R83). -/
def usedRegs : Instr → List Reg
  | .jmp _ => []
  | .jeq _ => []
  | .jne _ => []
  | .jlt _ => []
  | .jge _ => []
  | .ldr rd rm _ => [rd, rm]
  | .str rs rm _ => [rs, rm]
  | .mov rd _ => [rd]
  | .add rd rm rn => [rd, rm, rn]
  | .addi rd rm _ => [rd, rm]
  | .sub rd rm rn => [rd, rm, rn]
  | .subi rd rm _ => [rd, rm]
  | .and rd rm rn => [rd, rm, rn]
  | .or rd rm rn => [rd, rm, rn]
  | .shr rd rm _ => [rd, rm]
  | .shl rd rm _ => [rd, rm]
  | .cmp _ rm rn => [rm, rn]
  | .push rs _ => [rs]
  | .pop rd _ => [rd]
  | .halt => []

/-- The instruction is refused because it names the program counter (rule R118). -/
def pcRefused (p : Params) (i : Instr) : Bool :=
  match p.r15Access with
  | .aliased => false
  | .refuse => (usedRegs i).contains p.pcIndex

end Sys2Proof.Machine
end

