-- ==== Sys2Proof/Machine/Flags.lean ====
section
/-! DEFINITION. Every computation of a flag (41_alu.md rules R130, R131), the conditions of the conditional jumps
(43_control.md rule R182), and the two ways an ALU result is stored with its flags (10_state.md rule R28). -/

namespace Sys2Proof.Machine

/-- `Z <- (result == 0x0000)` (rule R130). -/
def zeroFlag (result : Word) : Bool := result == 0

/-- Carry of an addition: `uint(a) + uint(b) > 0xFFFF` (rule R131). -/
def carryFlag (a b : Word) : Bool := decide (0xFFFF < a.toNat + b.toNat)

/-- Carry of a subtraction, the borrow: `uint(a) < uint(b)` (rule R131). -/
def borrowFlag (a b : Word) : Bool := decide (a.toNat < b.toNat)

/-- Carry of ADDI under each setting of `IMM_CARRY` (rule R131). -/
def immCarryFlag (k : ImmCarry) (a : Word) (imm4 : BitVec 4) : Bool :=
  match k with
  | .adder16 => carryFlag a (sext imm4)
  | .integer => decide (0xFFFF < (a.toNat : Int) + simm imm4)

/-- Carry of SUBI under each setting of `IMM_CARRY` (rule R131). -/
def immBorrowFlag (k : ImmCarry) (a : Word) (imm4 : BitVec 4) : Bool :=
  match k with
  | .adder16 => borrowFlag a (sext imm4)
  | .integer => decide ((a.toNat : Int) - simm imm4 < 0)

/-- The sum of two words mod 2^16 (rules R130, R132). -/
def sumWord (a b : Word) : Word := BitVec.ofNat 16 (a.toNat + b.toNat)

/-- The difference of two words mod 2^16 (rules R130, R133). -/
def diffWord (a b : Word) : Word := BitVec.ofInt 16 ((a.toNat : Int) - (b.toNat : Int))

/-- A result with Z; Carry unchanged (rule R28: AND, OR, SHR, SHL). -/
def State.storeZ (s : State) (rd : Reg) (result : Word) : State :=
  (s.writeReg rd result).setZ (zeroFlag result)

/-- A result with Z and C (rule R28: ADD, ADDI, SUB, SUBI). -/
def State.storeZC (s : State) (rd : Reg) (result : Word) (carry : Bool) : State :=
  (s.storeZ rd result).setC carry

/-- Z and C without a result (rule R136). -/
def State.flagsZC (s : State) (result : Word) (carry : Bool) : State :=
  (s.setZ (zeroFlag result)).setC carry

/-- `Cond(0)`, JEQ (rule R182). -/
def State.condEq (s : State) : Bool := s.z

/-- `Cond(1)`, JNE (rule R182). -/
def State.condNe (s : State) : Bool := !s.z

/-- `Cond(2)`, JLT (rule R182). -/
def State.condLt (s : State) : Bool := !s.z && s.c

/-- `Cond(3)`, JGE (rule R182). -/
def State.condGe (s : State) : Bool := s.z || !s.c

end Sys2Proof.Machine
end

