-- ==== Sys2Proof/Machine/Alu.lean ====
section
/-! DEFINITION. The meanings of the ALU family: ADD, SUB, AND, OR, CMP, ADDI, SUBI, SHR, SHL (41_alu.md rules R132 to
R140). Source registers are read from the state before the destination is written (40_cycle.md rule R120). -/

namespace Sys2Proof.Machine

/-- ADD Rd, Rm, Rn (rule R132). -/
def execAdd (rd rm rn : Reg) (s : State) : Result :=
  .next (s.storeZC rd (sumWord (s.readReg rm) (s.readReg rn)) (carryFlag (s.readReg rm) (s.readReg rn)))

/-- SUB Rd, Rm, Rn (rule R133). -/
def execSub (rd rm rn : Reg) (s : State) : Result :=
  .next (s.storeZC rd (diffWord (s.readReg rm) (s.readReg rn)) (borrowFlag (s.readReg rm) (s.readReg rn)))

/-- AND Rd, Rm, Rn (rule R134). -/
def execAnd (rd rm rn : Reg) (s : State) : Result :=
  .next (s.storeZ rd (s.readReg rm &&& s.readReg rn))

/-- OR Rd, Rm, Rn (rule R135). -/
def execOr (rd rm rn : Reg) (s : State) : Result :=
  .next (s.storeZ rd (s.readReg rm ||| s.readReg rn))

/-- CMP Rm, Rn (rule R136): the flags of SUB, no register written. -/
def execCmp (rm rn : Reg) (s : State) : Result :=
  .next (s.flagsZC (diffWord (s.readReg rm) (s.readReg rn)) (borrowFlag (s.readReg rm) (s.readReg rn)))

/-- ADDI Rd, Rm, #imm (rule R137). -/
def execAddi (rd rm : Reg) (imm4 : BitVec 4) (s : State) : Result :=
  .next (s.storeZC rd (sumWord (s.readReg rm) (sext imm4)) (immCarryFlag s.params.immCarry (s.readReg rm) imm4))

/-- SUBI Rd, Rm, #imm (rule R138). -/
def execSubi (rd rm : Reg) (imm4 : BitVec 4) (s : State) : Result :=
  .next (s.storeZC rd (diffWord (s.readReg rm) (sext imm4)) (immBorrowFlag s.params.immCarry (s.readReg rm) imm4))

/-- SHR Rd, Rm, #n (rule R139): a logical shift; refused only under `SHIFT_AMOUNT` = `refuse_high` (30_encoding.md rule R92). -/
def execShr (rd rm : Reg) (imm4 : BitVec 4) (s : State) : Result :=
  if shiftRefused s.params imm4 then .refused .shiftCountHigh
  else .next (s.storeZ rd (s.readReg rm >>> shiftCount imm4))

/-- SHL Rd, Rm, #n (rule R140); refused only under `SHIFT_AMOUNT` = `refuse_high` (30_encoding.md rule R92). -/
def execShl (rd rm : Reg) (imm4 : BitVec 4) (s : State) : Result :=
  if shiftRefused s.params imm4 then .refused .shiftCountHigh
  else .next (s.storeZ rd (s.readReg rm <<< shiftCount imm4))

end Sys2Proof.Machine
end

