-- ==== Sys2Proof/Machine/Control.lean ====
section
/-! DEFINITION. The meanings of the control family: JMP, JEQ, JNE, JLT, JGE (43_control.md rules R180 to R187), and of
HALT (46_halt.md rule R235). A jump never faults itself (rule R187). -/

namespace Sys2Proof.Machine

/-- Adds an offset to the program counter, which is already the address of the next instruction (rule R180). -/
def State.jumpBy (s : State) (offset : Int) : State := s.setPc (jumpTarget s.pc offset)

/-- A conditional jump: taken if the condition holds, otherwise nothing changes (rule R180). -/
def State.jumpIf (s : State) (taken : Bool) (offset : Int) : State := if taken then s.jumpBy offset else s

/-- JMP offset (rule R181). -/
def execJmp (imm12 : BitVec 12) (s : State) : Result := .next (s.jumpBy (simm imm12))

/-- JEQ offset (rule R183). -/
def execJeq (imm10 : BitVec 10) (s : State) : Result := .next (s.jumpIf s.condEq (simm imm10))

/-- JNE offset (rule R184). -/
def execJne (imm10 : BitVec 10) (s : State) : Result := .next (s.jumpIf s.condNe (simm imm10))

/-- JLT offset (rule R185). -/
def execJlt (imm10 : BitVec 10) (s : State) : Result := .next (s.jumpIf s.condLt (simm imm10))

/-- JGE offset (rule R186). -/
def execJge (imm10 : BitVec 10) (s : State) : Result := .next (s.jumpIf s.condGe (simm imm10))

/-- HALT (46_halt.md rule R235): the run ends in the state after the program counter's increment, which nothing else
changes. Assumption log entry 8. -/
def execHalt (s : State) : Result := .next s.halt

end Sys2Proof.Machine
end

