-- ==== Sys2Proof/Machine/LoadStore.lean ====
section
/-! DEFINITION. The meanings of LDR and STR (44_memory_access.md rules R200 to R202), the console ports among their places
(20_memory.md rules R57 to R62). -/

namespace Sys2Proof.Machine

/-- A load that reads the host's input: the request is answered, the event joins the trace, the word goes to Rd
(20_memory.md rules R57, R58). -/
def State.input (s : State) (event : Word → IoEvent) (rd : Reg) : State :=
  (s.takeAnswer.emit (event s.nextAnswer)).writeReg rd s.nextAnswer

/-- The address of the access LDR and STR make. -/
def State.accessAddress (s : State) (rm : Reg) (imm4 : BitVec 4) : Int :=
  effectiveAddress s.params (s.readReg rm) imm4

/-- LDR Rd, [Rm, #imm] (rule R201). -/
def execLdr (rd rm : Reg) (imm4 : BitVec 4) (s : State) : Result :=
  match placeOf s.params (s.accessAddress rm imm4) with
  | .cell a => .next ((s.mark a).writeReg rd (s.readCell a))
  | .charIn => .next (s.input .charIn rd)
  | .intIn => .next (s.input .intIn rd)
  | .charOut => raise (.ioDirection .load s.params.ioCharOut) s
  | .intOut => raise (.ioDirection .load s.params.ioIntOut) s
  | .outside => raise (.memoryViolation .load (s.accessAddress rm imm4)) s

/-- STR Rs, [Rm, #imm] (rule R202). -/
def execStr (rs rm : Reg) (imm4 : BitVec 4) (s : State) : Result :=
  match placeOf s.params (s.accessAddress rm imm4) with
  | .cell a => .next ((s.mark a).writeCell a (s.readReg rs))
  | .charOut => .next (s.emit (.charOut (s.readReg rs)))
  | .intOut => .next (s.emit (.intOut (s.readReg rs)))
  | .charIn => raise (.ioDirection .store s.params.ioCharIn) s
  | .intIn => raise (.ioDirection .store s.params.ioIntIn) s
  | .outside => raise (.memoryViolation .store (s.accessAddress rm imm4)) s

end Sys2Proof.Machine
end

