-- ==== Sys2Proof/Machine/Move.lean ====
section
/-! DEFINITION. The meaning of MOV (42_move.md rule R170). -/

namespace Sys2Proof.Machine

/-- MOV Rd, #imm (rule R170). No flag is written. -/
def execMov (rd : Reg) (imm8 : BitVec 8) (s : State) : Result :=
  .next (s.writeReg rd (sext imm8))

end Sys2Proof.Machine
end

