-- ==== Sys2Proof/Machine/Stack.lean ====
section
/-! DEFINITION. The meanings of PUSH and POP (45_stack.md rules R220 to R222). Neither reaches the console ports
(20_memory.md rule R65) and neither marks the access bitmap (10_state.md rule R30). -/

namespace Sys2Proof.Machine

/-- The address PUSH stores to: the decremented stack pointer, `(uint(sp) - 1) mod 2^16` (rule R221). -/
def State.pushAddress (s : State) : Word := s.sp - 1

/-- PUSH Rs (rule R221): checked before the decrement is committed, and Rs read after it. -/
def execPush (rs : Reg) (s : State) : Result :=
  if s.inMemory s.pushAddress.toNat then
    let t := s.setSp s.pushAddress
    .next (t.writeCell s.pushAddress.toNat (t.readReg rs))
  else raise (.memoryViolation .push s.pushAddress.toNat) s

/-- POP Rd (rule R222): the stack pointer is incremented after Rd is written. -/
def execPop (rd : Reg) (s : State) : Result :=
  if s.inMemory s.sp.toNat then
    let t := s.writeReg rd (s.readCell s.sp.toNat)
    .next (t.setSp (t.sp + 1))
  else raise (.memoryViolation .pop s.sp.toNat) s

end Sys2Proof.Machine
end

