-- ==== Sys2Proof/Machine/Dispatch.lean ====
section
/-! DEFINITION. The dispatch of an instruction to its meaning (40_cycle.md rule R117), one arm per constructor. -/

namespace Sys2Proof.Machine

def exec (i : Instr) (s : State) : Host.Outcome State Fault Refusal :=
  match i with
  | .jmp imm12 => Sys2Proof.Machine.execJmp imm12 s
  | .jeq imm10 => Sys2Proof.Machine.execJeq imm10 s
  | .jne imm10 => Sys2Proof.Machine.execJne imm10 s
  | .jlt imm10 => Sys2Proof.Machine.execJlt imm10 s
  | .jge imm10 => Sys2Proof.Machine.execJge imm10 s
  | .ldr rd rm imm4 => Sys2Proof.Machine.execLdr rd rm imm4 s
  | .str rs rm imm4 => Sys2Proof.Machine.execStr rs rm imm4 s
  | .mov rd imm8 => Sys2Proof.Machine.execMov rd imm8 s
  | .add rd rm rn => Sys2Proof.Machine.execAdd rd rm rn s
  | .addi rd rm imm4 => Sys2Proof.Machine.execAddi rd rm imm4 s
  | .sub rd rm rn => Sys2Proof.Machine.execSub rd rm rn s
  | .subi rd rm imm4 => Sys2Proof.Machine.execSubi rd rm imm4 s
  | .and rd rm rn => Sys2Proof.Machine.execAnd rd rm rn s
  | .or rd rm rn => Sys2Proof.Machine.execOr rd rm rn s
  | .shr rd rm imm4 => Sys2Proof.Machine.execShr rd rm imm4 s
  | .shl rd rm imm4 => Sys2Proof.Machine.execShl rd rm imm4 s
  | .cmp _ rm rn => Sys2Proof.Machine.execCmp rm rn s
  | .push rs _ => Sys2Proof.Machine.execPush rs s
  | .pop rd _ => Sys2Proof.Machine.execPop rd s
  | .halt => Sys2Proof.Machine.execHalt s

end Sys2Proof.Machine
end

