-- ==== Sys2Proof/Machine/Fetch.lean ====
section
/-! DEFINITION. The first half of the cycle: breakpoint check, fetch bound check, fetch, increment of the program counter,
decode, and the refusal of rule R118 (40_cycle.md rules R110 to R118). -/

namespace Sys2Proof.Machine

/-- The breakpoint check, the first thing in a cycle (rule R111). -/
def State.pauseAtBreakpoint (s : State) : State :=
  if s.params.breakpoints.contains s.pc then s.pause else s

/-- A cycle begins: it is counted, and the engine pauses if its program counter is a breakpoint (rules R111, R287). -/
def State.beginCycle (s : State) : State := s.countCycle.pauseAtBreakpoint

/-- Fetch and increment (rules R113, R114). -/
def State.fetch (s : State) : State := (s.setIr (s.readCell s.pc.toNat)).setPc (s.pc + 1)

/-- The instruction a cycle executes and the state it executes in, or the fault or refusal that ends the run before that,
in the order of 60_exceptions.md rule R256. -/
def fetchDecode (s : State) : Host.Outcome (Instr × State) Fault Refusal :=
  let s₀ := s.beginCycle
  if s₀.inMemory s₀.pc.toNat then
    let s₁ := s₀.fetch
    match decode s₁.params.opcodeMap s₁.ir with
    | .error (.unknownInstruction w) => raiseAt s₀.pc (.unknownInstruction w) s₁
    | .ok i => if pcRefused s₁.params i then .refused .pcOperand else .next (i, s₁)
  else raiseAt s₀.pc (.memoryViolation .fetch s₀.pc.toNat) s₀

/-- A word placed where the next cycle fetches, in a run that goes on. -/
def State.placeWord (s : State) (w : Word) : State :=
  { s.writeCell s.pc.toNat w with status := .running }

end Sys2Proof.Machine
end

