-- ==== Sys2Proof/Machine/Step.lean ====
section
/-! DEFINITION. The step of the machine: one cycle, one instruction (40_cycle.md rule R121). -/

namespace Sys2Proof.Machine

/-- One cycle. After HALT nothing runs, so the state stays as it is (60_exceptions.md rule R266; assumption log entry 8). -/
def step (s : State) : Host.Outcome State Fault Refusal :=
  match s.status with
  | .halted => .next s
  | .running =>
    match fetchDecode s with
    | .next (i, t) => exec i t
    | .fault f => .fault f
    | .refused r => .refused r

/-- The state with the instruction whose bits are `w`, `nbits` of them, in the cell the next cycle fetches from. It stands
for the load of a program from outside the machine: assumption log entry 15. -/
def State.withFetchWord (s : State) (nbits w : Nat) : State :=
  s.placeWord (BitVec.ofNat 16 (w % 2 ^ nbits))

end Sys2Proof.Machine
end

