-- ==== Sys2Proof/Machine/Launch.lean ====
section
/-! DEFINITION. The launch of a run: reset, then the launch image (70_reset_and_hazards.md rules R280 to R283). -/

namespace Sys2Proof.Machine

/-- A launch image: words by address (rule R282). -/
abbrev Image := List (Nat × Word)

/-- Every address below N (rule R282), no address twice (assumption log entry 22). -/
def imageValid (p : Params) (image : Image) : Bool :=
  (image.all fun cell => decide (cell.1 < p.memWords)) && decide (image.map (·.1)).Nodup

/-- The memory that holds the image and 0 elsewhere (rule R282). -/
def imageMemory (image : Image) : Memory := image.foldl (fun m cell => m.write cell.1 cell.2) []

/-- The state in which the first cycle starts, for launch parameters, a launch image and the host's answers to the input
requests of the run. Loading does not mark the access bitmap (rule R282). -/
def launch (p : Params) (image : Image) (answers : List Word) : Result :=
  if p.wf = false then .refused .invalidParams
  else if imageValid p image = false then .refused .invalidImage
  else .next { State.resetWith p with mem := imageMemory image, answers := answers }

end Sys2Proof.Machine
end

