-- ==== Sys2Proof/Safety.lean ====
section
/-! DEFINITION. The terms the claims are stated in: the well-formed states, how a cycle ends, what an instruction writes
by the spec's own tables, the frames, and the parts of the state that no rule of the machine reads. -/

namespace Sys2Proof.Machine

/-! ### Well-formed states -/

/-- The memory is canonical and lies in cells 0..N-1 (10_state.md rule R37), the access bitmap is canonical and has bits
for those cells only (rule R30), and the launch parameters are such as the spec admits (00_scope.md rule R8). -/
abbrev State.wf (s : State) : Prop :=
  s.mem.wf ∧ (∀ cell ∈ s.mem, cell.1 < s.params.memWords) ∧
    s.marked.Pairwise (· < ·) ∧ (∀ a ∈ s.marked, a < s.params.memWords) ∧ s.params.wf = true

/-! ### How a cycle ends -/

/-- The outcomes of rule R39 (10_state.md) and rule R258 (60_exceptions.md), and the model's refusals. -/
inductive CycleEnd where
  | running (s : State)
  | halted (s : State)
  | faulted (f : Fault) (s : State)
  | refused (r : Refusal)
  deriving DecidableEq, Repr

/-- The step's answer in the spec's terms. -/
def cycleEnd (s : State) : CycleEnd :=
  match step s with
  | .next t =>
    match t.status with
    | .running => .running t
    | .halted => .halted t
  | .fault f => .faulted f f.final
  | .refused r => .refused r

/-! ### What an instruction writes, by the spec's tables -/

/-- The instructions that write Z (rule R28). -/
def writesZ : Instr → Bool
  | .add _ _ _ => true
  | .addi _ _ _ => true
  | .sub _ _ _ => true
  | .subi _ _ _ => true
  | .cmp _ _ _ => true
  | .and _ _ _ => true
  | .or _ _ _ => true
  | .shr _ _ _ => true
  | .shl _ _ _ => true
  | .mov _ _ => false
  | .ldr _ _ _ => false
  | .str _ _ _ => false
  | .push _ _ => false
  | .pop _ _ => false
  | .jmp _ => false
  | .jeq _ => false
  | .jne _ => false
  | .jlt _ => false
  | .jge _ => false
  | .halt => false

/-- The instructions that write C (rule R28). -/
def writesC : Instr → Bool
  | .add _ _ _ => true
  | .addi _ _ _ => true
  | .sub _ _ _ => true
  | .subi _ _ _ => true
  | .cmp _ _ _ => true
  | .and _ _ _ => false
  | .or _ _ _ => false
  | .shr _ _ _ => false
  | .shl _ _ _ => false
  | .mov _ _ => false
  | .ldr _ _ _ => false
  | .str _ _ _ => false
  | .push _ _ => false
  | .pop _ _ => false
  | .jmp _ => false
  | .jeq _ => false
  | .jne _ => false
  | .jlt _ => false
  | .jge _ => false
  | .halt => false

/-- The registers an instruction's execute may write (rule R24; the increment at fetch is not the execute's). -/
def registersWritten (p : Params) : Instr → List Reg
  | .add rd _ _ => [rd]
  | .sub rd _ _ => [rd]
  | .and rd _ _ => [rd]
  | .or rd _ _ => [rd]
  | .cmp _ _ _ => []
  | .addi rd _ _ => [rd]
  | .subi rd _ _ => [rd]
  | .shr rd _ _ => [rd]
  | .shl rd _ _ => [rd]
  | .mov rd _ => [rd]
  | .jmp _ => [p.pcIndex]
  | .jeq _ => [p.pcIndex]
  | .jne _ => [p.pcIndex]
  | .jlt _ => [p.pcIndex]
  | .jge _ => [p.pcIndex]
  | .ldr rd _ _ => [rd]
  | .str _ _ _ => []
  | .push _ _ => [p.spIndex]
  | .pop rd _ => [rd, p.spIndex]
  | .halt => []

/-- The physical cell at the effective address of LDR and STR, if that is what lies there (44_memory_access.md rule R200). -/
def accessedCell (s : State) (rm : Reg) (imm4 : BitVec 4) : Option Nat :=
  match placeOf s.params (s.accessAddress rm imm4) with
  | .cell a => some a
  | .charIn => none
  | .charOut => none
  | .intIn => none
  | .intOut => none
  | .outside => none

/-- The physical cell an instruction stores to, if it stores to one: the cell at the effective address of STR
(44_memory_access.md rule R202), the cell at the decremented stack pointer of PUSH (45_stack.md rule R221). -/
def storedCell (i : Instr) (s : State) : Option Nat :=
  match i with
  | .jmp _ => none
  | .jeq _ => none
  | .jne _ => none
  | .jlt _ => none
  | .jge _ => none
  | .ldr _ _ _ => none
  | .str _ rm imm4 => accessedCell s rm imm4
  | .mov _ _ => none
  | .add _ _ _ => none
  | .addi _ _ _ => none
  | .sub _ _ _ => none
  | .subi _ _ _ => none
  | .and _ _ _ => none
  | .or _ _ _ => none
  | .shr _ _ _ => none
  | .shl _ _ _ => none
  | .cmp _ _ _ => none
  | .push _ _ => some s.pushAddress.toNat
  | .pop _ _ => none
  | .halt => none

/-- The physical cell whose bit of the access bitmap an instruction sets (10_state.md rule R30). -/
def markedCell (i : Instr) (s : State) : Option Nat :=
  match i with
  | .jmp _ => none
  | .jeq _ => none
  | .jne _ => none
  | .jlt _ => none
  | .jge _ => none
  | .ldr _ rm imm4 => accessedCell s rm imm4
  | .str _ rm imm4 => accessedCell s rm imm4
  | .mov _ _ => none
  | .add _ _ _ => none
  | .addi _ _ _ => none
  | .sub _ _ _ => none
  | .subi _ _ _ => none
  | .and _ _ _ => none
  | .or _ _ _ => none
  | .shr _ _ _ => none
  | .shl _ _ _ => none
  | .cmp _ _ _ => none
  | .push _ _ => none
  | .pop _ _ => none
  | .halt => none

/-- The memory access an instruction's execute makes, if it makes one (60_exceptions.md rule R252). -/
def accessOf : Instr → Option Access
  | .jmp _ => none
  | .jeq _ => none
  | .jne _ => none
  | .jlt _ => none
  | .jge _ => none
  | .ldr _ _ _ => some .load
  | .str _ _ _ => some .store
  | .mov _ _ => none
  | .add _ _ _ => none
  | .addi _ _ _ => none
  | .sub _ _ _ => none
  | .subi _ _ _ => none
  | .and _ _ _ => none
  | .or _ _ _ => none
  | .shr _ _ _ => none
  | .shl _ _ _ => none
  | .cmp _ _ _ => none
  | .push _ _ => some .push
  | .pop _ _ => some .pop
  | .halt => none

/-! ### Frames -/

/-- Every register outside the list reads as before. -/
def KeepsRegsBut (written : List Reg) (s t : State) : Prop := ∀ r, r ∉ written → t.readReg r = s.readReg r

/-- Both flags are as before. -/
def KeepsFlags (s t : State) : Prop := t.z = s.z ∧ t.c = s.c

/-- Every cell outside the list reads as before. -/
def KeepsMemoryBut (stored : List Nat) (s t : State) : Prop := ∀ a, a ∉ stored → t.readCell a = s.readCell a

/-- Every bit of the access bitmap outside the list is as before. -/
def KeepsMarksBut (marks : List Nat) (s t : State) : Prop := ∀ a, a ∉ marks → (a ∈ t.marked ↔ a ∈ s.marked)

/-- The console: the trace and the host's answers are as before. -/
def KeepsConsole (s t : State) : Prop := t.trace = s.trace ∧ t.answers = s.answers ∧ t.draws = s.draws

/-- The engine's own state and the launch parameters are as before. -/
def KeepsEngine (s t : State) : Prop :=
  t.ir = s.ir ∧ t.status = s.status ∧ t.pauses = s.pauses ∧ t.cycles = s.cycles ∧ t.params = s.params

/-- `ea` is the effective address of LDR and STR: the exact sum of the base and the two's-complement offset, or under
`EA_OVERFLOW` = `wrap` that sum mod 2^16 (44_memory_access.md rule R200). -/
def AddressIs (s : State) (rm : Reg) (imm4 : BitVec 4) (ea : Int) : Prop :=
  (s.params.eaOverflow = .fault → ea = (s.readReg rm).toNat + imm4.toInt) ∧
    (s.params.eaOverflow = .wrap → ea = ((s.readReg rm).toNat + imm4.toInt) % 65536)

/-- Physical cell `a` is an address LDR and STR reach as memory: below N and no port (20_memory.md rule R55). -/
def IsCell (p : Params) (a : Nat) : Prop := a < p.memWords ∧ a ≤ 0xFFFF ∧ ∀ port ∈ p.ports, a ≠ port.toNat

/-- `ea` is no address, or an address at or above N that is no port (60_exceptions.md rule R252). -/
def IsOutside (p : Params) (ea : Int) : Prop :=
  ea < 0 ∨ 0xFFFF < ea ∨ ((p.memWords : Int) ≤ ea ∧ ∀ port ∈ p.ports, ea ≠ port.toNat)

/-- Nothing but the listed registers and the flags may differ. -/
def OnlyRegsAndFlags (written : List Reg) (s t : State) : Prop :=
  KeepsRegsBut written s t ∧ KeepsMemoryBut [] s t ∧ KeepsMarksBut [] s t ∧ KeepsConsole s t ∧ KeepsEngine s t

/-- Nothing but the listed registers may differ. -/
def OnlyRegs (written : List Reg) (s t : State) : Prop := OnlyRegsAndFlags written s t ∧ KeepsFlags s t

/-- A conditional jump: the instruction answers a next state, in which the offset is added to the program counter mod 2^16
if the predicate holds and in which nothing has changed if it does not (43_control.md rules R180, R182). -/
def JumpsWhen (i : Instr) (s : State) (holds : Prop) (offset : Int) : Prop :=
  ∃ t, exec i s = .next t ∧ (holds → (t.pc.toNat : Int) = (s.pc.toNat + offset) % 65536) ∧ (¬ holds → t = s) ∧
    OnlyRegs [s.params.pcIndex] s t

/-! ### What no rule of the machine reads -/

/-- The state with everything erased that is there to be observed only: the access bitmap (rule R30), the console trace
(rule R34), the instruction register of the last cycle (rule R31), the pauses, the count of cycles (70_reset_and_hazards.md
rule R287) and the breakpoint set (rule R33). -/
def State.unobserved (s : State) : State :=
  { s with marked := [], trace := [], ir := 0, pauses := [], cycles := 0, params := { s.params with breakpoints := [] } }

/-- A fault with its state's observations erased. -/
def Fault.unobserved : Fault → Fault
  | .memoryViolation access a addr s => .memoryViolation access a addr s.unobserved
  | .unknownInstruction a ir s => .unknownInstruction a ir s.unobserved
  | .ioDirection access a port s => .ioDirection access a port s.unobserved

/-- A step's answer with its observations erased. -/
def unobservedResult : Result → Result
  | .next s => .next s.unobserved
  | .fault f => .fault f.unobserved
  | .refused r => .refused r

end Sys2Proof.Machine
end

