-- ==== Sys2Proof/Certificates/Slice0/Obligations.lean ====
section
/-! DEFINITION. The statements for the provers. An opcode value that a statement's encoding clause names is decision D1 of
the spec under the default opcode map; the default parameter values are decisions of the spec too (92_eei_decisions.md).
Statements that do not name the default parameters hold for every setting of the launch parameters. -/

open Sys2Proof Sys2Proof.Machine

/-! ### Encoding -/

/-- 30_encoding.md rules R80 to R96: under every opcode map, a well-formed instruction has a word, and that word decodes
to it, with every operand at every value of its field. -/
def Obligations.DecodeOfEncodeIsTheInstruction : Prop :=
  ∀ (m : OpcodeMap) (i : Instr), i.wellFormed m = true → ∃ w, encode m i = some w ∧ decode m w = .ok i

/-- 30_encoding.md rules R82 to R98, under the default opcode map (decision D1): every one of the 65536 words decodes to an
instruction, which is well formed and encodes back to the same word, so no two words share a meaning with other bits lost. -/
def Obligations.EveryWordDecodesAndEncodesBack : Prop :=
  ∀ w : Word, ∃ i, decode standardOpcodeMap w = .ok i ∧ i.wellFormed standardOpcodeMap = true ∧
    encode standardOpcodeMap i = some w

/-- Words the spec writes out (95_test_vectors.md, L1 and L2) decode to the instructions it gives them. -/
def Obligations.SpecWordsDecode : Prop :=
  decode standardOpcodeMap 0x0125 = .ok (.add 0 1 2) ∧ decode standardOpcodeMap 0x0127 = .ok (.sub 0 1 2) ∧
  decode standardOpcodeMap 0x3129 = .ok (.and 3 1 2) ∧ decode standardOpcodeMap 0x312A = .ok (.or 3 1 2) ∧
  decode standardOpcodeMap 0x11F6 = .ok (.addi 1 1 0xF) ∧ decode standardOpcodeMap 0x0018 = .ok (.subi 0 0 1) ∧
  decode standardOpcodeMap 0x214B = .ok (.shr 2 1 4) ∧ decode standardOpcodeMap 0x001C = .ok (.shl 0 0 1) ∧
  decode standardOpcodeMap 0x043D = .ok (.cmp 0 4 3) ∧ decode standardOpcodeMap 0x3FD4 = .ok (.mov 3 0xFD) ∧
  decode standardOpcodeMap 0xFFC0 = .ok (.jmp 0xFFC) ∧ decode standardOpcodeMap 0x0021 = .ok (.jeq 2) ∧
  decode standardOpcodeMap 0x7FD1 = .ok (.jne 0x3FD) ∧ decode standardOpcodeMap 0x8021 = .ok (.jlt 2) ∧
  decode standardOpcodeMap 0xFFF1 = .ok (.jge 0x3FF) ∧ decode standardOpcodeMap 0x62F2 = .ok (.ldr 6 2 0xF) ∧
  decode standardOpcodeMap 0x7203 = .ok (.str 7 2 0) ∧ decode standardOpcodeMap 0x300E = .ok (.push 3 0) ∧
  decode standardOpcodeMap 0xF00F = .ok (.pop 15 0) ∧ decode standardOpcodeMap 0xFFFF = .ok .halt

/-- 95_test_vectors.md L1.1, on the routine of 00_scope.md rule R10: "it must round-trip", for every width N ≥ 1 and every
value of that width. -/
def Obligations.SignExtensionRoundTrips : Prop :=
  ∀ (n : Nat) (v : Int), -(2 ^ n) ≤ v → v < 2 ^ n → simm (BitVec.ofInt (n + 1) v) = v

/-! ### The ALU family -/

/-- 41_alu.md rule R132, whole: the encoding `ddddmmmmnnnn0101`, the sum mod 2^16, Z and C, no exception, nothing else. -/
def Obligations.AddGivesSumZeroAndCarry : Prop :=
  (∀ d m n : BitVec 4, decode standardOpcodeMap (d ++ m ++ n ++ 0x5#4) = .ok (.add d.toFin m.toFin n.toFin)) ∧
  ∀ (rd rm rn : Reg) (s : State), ∃ t, exec (.add rd rm rn) s = .next t ∧
    (t.readReg rd).toNat = ((s.readReg rm).toNat + (s.readReg rn).toNat) % 65536 ∧
    (t.z = true ↔ ((s.readReg rm).toNat + (s.readReg rn).toNat) % 65536 = 0) ∧
    (t.c = true ↔ 0xFFFF < (s.readReg rm).toNat + (s.readReg rn).toNat) ∧
    OnlyRegsAndFlags [rd] s t

/-- 41_alu.md rule R133, whole: the encoding `ddddmmmmnnnn0111`, the difference mod 2^16, Z, and C as the borrow. -/
def Obligations.SubGivesDifferenceZeroAndBorrow : Prop :=
  (∀ d m n : BitVec 4, decode standardOpcodeMap (d ++ m ++ n ++ 0x7#4) = .ok (.sub d.toFin m.toFin n.toFin)) ∧
  ∀ (rd rm rn : Reg) (s : State), ∃ t, exec (.sub rd rm rn) s = .next t ∧
    ((t.readReg rd).toNat : Int) = ((s.readReg rm).toNat - (s.readReg rn).toNat : Int) % 65536 ∧
    (t.z = true ↔ ((s.readReg rm).toNat - (s.readReg rn).toNat : Int) % 65536 = 0) ∧
    (t.c = true ↔ (s.readReg rm).toNat < (s.readReg rn).toNat) ∧
    OnlyRegsAndFlags [rd] s t

/-- 41_alu.md rules R134 and R135, whole: the encodings `ddddmmmmnnnn1001` and `ddddmmmmnnnn1010`, the bitwise result bit by
bit, Z from it, C unaffected. -/
def Obligations.AndOrGiveBitwiseResultAndKeepCarry : Prop :=
  (∀ d m n : BitVec 4, decode standardOpcodeMap (d ++ m ++ n ++ 0x9#4) = .ok (.and d.toFin m.toFin n.toFin)) ∧
  (∀ d m n : BitVec 4, decode standardOpcodeMap (d ++ m ++ n ++ 0xA#4) = .ok (.or d.toFin m.toFin n.toFin)) ∧
  ∀ (rd rm rn : Reg) (s : State),
    (∃ t, exec (.and rd rm rn) s = .next t ∧
      (∀ k, (t.readReg rd).getLsbD k = ((s.readReg rm).getLsbD k && (s.readReg rn).getLsbD k)) ∧
      (t.z = true ↔ t.readReg rd = 0) ∧ t.c = s.c ∧ OnlyRegsAndFlags [rd] s t) ∧
    (∃ t, exec (.or rd rm rn) s = .next t ∧
      (∀ k, (t.readReg rd).getLsbD k = ((s.readReg rm).getLsbD k || (s.readReg rn).getLsbD k)) ∧
      (t.z = true ↔ t.readReg rd = 0) ∧ t.c = s.c ∧ OnlyRegsAndFlags [rd] s t)

/-- 41_alu.md rule R137, whole: the encoding `ddddmmmmiiii0110`, the sum with the two's-complement immediate mod 2^16, Z,
and C under each setting of `IMM_CARRY` (decision D19): of the 16-bit addition of the sign-extended word, or of the exact
sum. -/
def Obligations.AddiGivesSumZeroAndCarry : Prop :=
  (∀ d m i : BitVec 4, decode standardOpcodeMap (d ++ m ++ i ++ 0x6#4) = .ok (.addi d.toFin m.toFin i)) ∧
  ∀ (rd rm : Reg) (imm4 : BitVec 4) (s : State), ∃ t, exec (.addi rd rm imm4) s = .next t ∧
    ((t.readReg rd).toNat : Int) = ((s.readReg rm).toNat + imm4.toInt) % 65536 ∧
    (t.z = true ↔ ((s.readReg rm).toNat + imm4.toInt) % 65536 = 0) ∧
    (s.params.immCarry = .adder16 → (t.c = true ↔ 0xFFFF < (s.readReg rm).toNat + imm4.toInt % 65536)) ∧
    (s.params.immCarry = .integer → (t.c = true ↔ 0xFFFF < (s.readReg rm).toNat + imm4.toInt)) ∧
    OnlyRegsAndFlags [rd] s t

/-- 41_alu.md rule R138, whole: the encoding `ddddmmmmiiii1000`, the difference, Z, and C as the borrow, under each setting
of `IMM_CARRY` (rule R131, decision D19). -/
def Obligations.SubiGivesDifferenceZeroAndBorrow : Prop :=
  (∀ d m i : BitVec 4, decode standardOpcodeMap (d ++ m ++ i ++ 0x8#4) = .ok (.subi d.toFin m.toFin i)) ∧
  ∀ (rd rm : Reg) (imm4 : BitVec 4) (s : State), ∃ t, exec (.subi rd rm imm4) s = .next t ∧
    ((t.readReg rd).toNat : Int) = ((s.readReg rm).toNat - imm4.toInt) % 65536 ∧
    (t.z = true ↔ ((s.readReg rm).toNat - imm4.toInt) % 65536 = 0) ∧
    (s.params.immCarry = .adder16 → (t.c = true ↔ (s.readReg rm).toNat < imm4.toInt % 65536)) ∧
    (s.params.immCarry = .integer → (t.c = true ↔ (s.readReg rm).toNat - imm4.toInt < 0)) ∧
    OnlyRegsAndFlags [rd] s t

/-- 41_alu.md rules R139 and R140: the logical shifts by the unsigned count (decision D18), Z from the result, C unchanged.
They run on every count under `SHIFT_AMOUNT` = `zext`, and on the counts 0..7 under either setting. -/
def Obligations.ShiftsAreLogicalByTheUnsignedCount : Prop :=
  ∀ (rd rm : Reg) (imm4 : BitVec 4) (s : State), (s.params.shiftAmount = .zext ∨ imm4.toNat < 8) →
    (∃ t, exec (.shr rd rm imm4) s = .next t ∧
      (t.readReg rd).toNat = (s.readReg rm).toNat / 2 ^ imm4.toNat ∧
      (t.z = true ↔ (s.readReg rm).toNat / 2 ^ imm4.toNat = 0) ∧ t.c = s.c ∧ OnlyRegsAndFlags [rd] s t) ∧
    (∃ t, exec (.shl rd rm imm4) s = .next t ∧
      (t.readReg rd).toNat = (s.readReg rm).toNat * 2 ^ imm4.toNat % 65536 ∧
      (t.z = true ↔ (s.readReg rm).toNat * 2 ^ imm4.toNat % 65536 = 0) ∧ t.c = s.c ∧ OnlyRegsAndFlags [rd] s t)

/-- 30_encoding.md rule R92 (decision D18): under `SHIFT_AMOUNT` = `refuse_high` SHR and SHL with bit 3 of the count field
set are refused. -/
def Obligations.HighShiftCountsAreRefusedWhenSoSet : Prop :=
  ∀ (rd rm : Reg) (imm4 : BitVec 4) (s : State), s.params.shiftAmount = .refuseHigh → 8 ≤ imm4.toNat →
    exec (.shr rd rm imm4) s = .refused .shiftCountHigh ∧ exec (.shl rd rm imm4) s = .refused .shiftCountHigh

/-- 41_alu.md rule R136 (form CR is decision D6): CMP sets Z and C as SUB does, whatever its ignored bits, and writes no
register. -/
def Obligations.CmpSetsTheFlagsOfSubOnly : Prop :=
  ∀ (ignored : BitVec 4) (rm rn : Reg) (s : State), ∃ t, exec (.cmp ignored rm rn) s = .next t ∧
    (t.z = true ↔ s.readReg rm = s.readReg rn) ∧
    (t.c = true ↔ (s.readReg rm).toNat < (s.readReg rn).toNat) ∧
    (∀ rd u, exec (.sub rd rm rn) s = .next u → t.z = u.z ∧ t.c = u.c) ∧
    OnlyRegsAndFlags [] s t

/-! ### Move and control -/

/-- 42_move.md rule R170: MOV loads the two's-complement value of imm8 and touches nothing else, the flags among it. -/
def Obligations.MovLoadsTheSignedImmediate : Prop :=
  ∀ (rd : Reg) (imm8 : BitVec 8) (s : State), ∃ t, exec (.mov rd imm8) s = .next t ∧
    (t.readReg rd).toInt = imm8.toInt ∧ OnlyRegs [rd] s t

/-- 43_control.md rules R180 and R181: JMP adds the signed 12-bit offset to the incremented program counter, mod 2^16
(decision D17), and changes nothing else. -/
def Obligations.JmpAddsTheOffsetToThePc : Prop :=
  ∀ (imm12 : BitVec 12) (s : State), ∃ t, exec (.jmp imm12) s = .next t ∧
    (t.pc.toNat : Int) = (s.pc.toNat + imm12.toInt) % 65536 ∧ OnlyRegs [s.params.pcIndex] s t

/-- 43_control.md rules R182 to R186, whole: the encodings, the four predicates in the order of the condition codes, the
signed 10-bit offset added mod 2^16 only if the predicate holds, nothing else written; JGE is taken exactly when JLT is not. -/
def Obligations.ConditionalJumpsTestTheirPredicates : Prop :=
  (∀ v : BitVec 10, decode standardOpcodeMap (0b00#2 ++ v ++ 0x1#4) = .ok (.jeq v) ∧
    decode standardOpcodeMap (0b01#2 ++ v ++ 0x1#4) = .ok (.jne v) ∧
    decode standardOpcodeMap (0b10#2 ++ v ++ 0x1#4) = .ok (.jlt v) ∧
    decode standardOpcodeMap (0b11#2 ++ v ++ 0x1#4) = .ok (.jge v)) ∧
  ∀ (v : BitVec 10) (s : State),
    JumpsWhen (.jeq v) s (s.z = true) v.toInt ∧ JumpsWhen (.jne v) s (s.z = false) v.toInt ∧
    JumpsWhen (.jlt v) s (s.z = false ∧ s.c = true) v.toInt ∧ JumpsWhen (.jge v) s (s.z = true ∨ s.c = false) v.toInt ∧
    JumpsWhen (.jge v) s (¬ (s.z = false ∧ s.c = true)) v.toInt

/-- 43_control.md rule R189 (derived by the spec): after CMP, and after SUB with any destination, the four conditional
jumps test equality and unsigned order of the two sources. -/
def Obligations.JumpsAfterCompareTestUnsignedOrder : Prop :=
  ∀ (ignored : BitVec 4) (rd rm rn : Reg) (v : BitVec 10) (s t : State),
    (exec (.cmp ignored rm rn) s = .next t ∨ exec (.sub rd rm rn) s = .next t) →
    exec (.jeq v) t = .next (if s.readReg rm = s.readReg rn then t.jumpBy v.toInt else t) ∧
    exec (.jne v) t = .next (if s.readReg rm ≠ s.readReg rn then t.jumpBy v.toInt else t) ∧
    exec (.jlt v) t = .next (if (s.readReg rm).toNat < (s.readReg rn).toNat then t.jumpBy v.toInt else t) ∧
    exec (.jge v) t = .next (if (s.readReg rn).toNat ≤ (s.readReg rm).toNat then t.jumpBy v.toInt else t)

/-! ### Loads and stores -/

/-- 44_memory_access.md rules R200 and R201: LDR of a physical cell loads its word, marks its bit and changes nothing else. -/
def Obligations.LdrLoadsThePhysicalCell : Prop :=
  ∀ (rd rm : Reg) (imm4 : BitVec 4) (s : State) (a : Nat), AddressIs s rm imm4 a → IsCell s.params a →
    ∃ t, exec (.ldr rd rm imm4) s = .next t ∧ t.readReg rd = s.readCell a ∧ a ∈ t.marked ∧
      KeepsRegsBut [rd] s t ∧ KeepsFlags s t ∧ KeepsMemoryBut [] s t ∧ KeepsMarksBut [a] s t ∧
      KeepsConsole s t ∧ KeepsEngine s t

/-- 20_memory.md rules R57, R58 and R62: LDR of an input port gives Rd the host's next answer, whatever word it is
(decision D14; assumption log entry 10), appends the event, and changes no flag, cell or bit of the bitmap. -/
def Obligations.LdrFromAnInputPortTakesTheHostsAnswer : Prop :=
  ∀ (rd rm : Reg) (imm4 : BitVec 4) (s : State) (port : Word), s.params.wf = true → AddressIs s rm imm4 port.toNat →
    (port = s.params.ioCharIn ∨ port = s.params.ioIntIn) →
    ∃ t v, exec (.ldr rd rm imm4) s = .next t ∧ t.readReg rd = v ∧
      (∀ w rest, s.answers = w :: rest → v = w) ∧ (s.answers = [] → v = Config.hostAnswer s.draws) ∧
      (port = s.params.ioCharIn → t.trace = s.trace ++ [.charIn v]) ∧
      (port = s.params.ioIntIn → t.trace = s.trace ++ [.intIn v]) ∧
      t.answers = s.answers.tail ∧ t.draws = s.draws + 1 ∧
      KeepsRegsBut [rd] s t ∧ KeepsFlags s t ∧ KeepsMemoryBut [] s t ∧ KeepsMarksBut [] s t ∧ KeepsEngine s t

/-- 44_memory_access.md rules R200 and R202: STR to a physical cell stores the register's word in the cell at the effective
address, marks its bit and changes nothing else. -/
def Obligations.StrStoresToThePhysicalCell : Prop :=
  ∀ (rs rm : Reg) (imm4 : BitVec 4) (s : State) (a : Nat), AddressIs s rm imm4 a → IsCell s.params a →
    ∃ t, exec (.str rs rm imm4) s = .next t ∧ t.readCell a = s.readReg rs ∧ a ∈ t.marked ∧
      KeepsRegsBut [] s t ∧ KeepsFlags s t ∧ KeepsMemoryBut [a] s t ∧ KeepsMarksBut [a] s t ∧
      KeepsConsole s t ∧ KeepsEngine s t

/-- 20_memory.md rules R59, R60 and R62: STR to an output port appends one event with the whole word and changes nothing
else. -/
def Obligations.StrToAnOutputPortAppendsTheEvent : Prop :=
  ∀ (rs rm : Reg) (imm4 : BitVec 4) (s : State) (port : Word), s.params.wf = true → AddressIs s rm imm4 port.toNat →
    (port = s.params.ioCharOut ∨ port = s.params.ioIntOut) →
    ∃ t, exec (.str rs rm imm4) s = .next t ∧
      (port = s.params.ioCharOut → t.trace = s.trace ++ [.charOut (s.readReg rs)]) ∧
      (port = s.params.ioIntOut → t.trace = s.trace ++ [.intOut (s.readReg rs)]) ∧
      t.answers = s.answers ∧ t.draws = s.draws ∧
      KeepsRegsBut [] s t ∧ KeepsFlags s t ∧ KeepsMemoryBut [] s t ∧ KeepsMarksBut [] s t ∧ KeepsEngine s t

/-- 60_exceptions.md rules R252 and R254 (decisions D13, D16): when LDR and STR fault, with what record. That the recorded
instruction address is `pc - 1` of the executing state is assumption log entry 14 (DEDUCED), and that under `EA_OVERFLOW` =
`wrap` the recorded address is the reduced sum is assumption log entry 18 (DEDUCED). -/
def Obligations.LoadsAndStoresFaultAsTheTablesSay : Prop :=
  ∀ (r rm : Reg) (imm4 : BitVec 4) (s : State) (ea : Int), AddressIs s rm imm4 ea →
    (IsOutside s.params ea →
      exec (.ldr r rm imm4) s = .fault (.memoryViolation .load (s.pc - 1) ea s) ∧
      exec (.str r rm imm4) s = .fault (.memoryViolation .store (s.pc - 1) ea s)) ∧
    (s.params.wf = true → ∀ port : Word, ea = port.toNat →
      ((port = s.params.ioCharOut ∨ port = s.params.ioIntOut) →
        exec (.ldr r rm imm4) s = .fault (.ioDirection .load (s.pc - 1) port s)) ∧
      ((port = s.params.ioCharIn ∨ port = s.params.ioIntIn) →
        exec (.str r rm imm4) s = .fault (.ioDirection .store (s.pc - 1) port s)))

/-- 44_memory_access.md rule R203 (derived by the spec): a store followed by a load of the same cell returns the stored
word. -/
def Obligations.LoadAfterStoreReturnsTheStoredWord : Prop :=
  ∀ (rs rm rd rm' : Reg) (imm4 imm4' : BitVec 4) (s t : State) (a : Nat),
    exec (.str rs rm imm4) s = .next t → storedCell (.str rs rm imm4) s = some a → AddressIs t rm' imm4' a →
    ∃ u, exec (.ldr rd rm' imm4') t = .next u ∧ u.readReg rd = s.readReg rs

/-- 20_memory.md rule R71 (decision D30): a store into the cell the next instruction occupies is seen by the very next
fetch: the next cycle executes the stored word. -/
def Obligations.StoreIsSeenByTheNextFetch : Prop :=
  ∀ (rs rm : Reg) (imm4 : BitVec 4) (s t : State) (i : Instr),
    s.status = .running → exec (.str rs rm imm4) s = .next t →
    storedCell (.str rs rm imm4) s = some s.pc.toNat →
    decode s.params.opcodeMap (s.readReg rs) = .ok i → pcRefused s.params i = false →
    ∃ u, u.ir = s.readReg rs ∧ u.pc = s.pc + 1 ∧ u.readCell s.pc.toNat = s.readReg rs ∧
      KeepsRegsBut [s.params.pcIndex] s u ∧ KeepsFlags s u ∧ KeepsMemoryBut [s.pc.toNat] s u ∧ KeepsConsole s u ∧
      step t = exec i u

/-! ### The stack -/

/-- 45_stack.md rule R221 (decision D25 for Rs = SP): PUSH decrements the stack pointer mod 2^16 and stores the register,
read after the decrement, at the new stack pointer; nothing else changes, whatever the ignored bits. -/
def Obligations.PushStoresAtTheDecrementedStackPointer : Prop :=
  ∀ (rs : Reg) (ignored : BitVec 8) (s : State), (s.sp.toNat + 0xFFFF) % 65536 < s.params.memWords →
    ∃ t, exec (.push rs ignored) s = .next t ∧
      t.sp.toNat = (s.sp.toNat + 0xFFFF) % 65536 ∧ storedCell (.push rs ignored) s = some t.sp.toNat ∧
      (rs ≠ s.params.spIndex → t.readCell t.sp.toNat = s.readReg rs) ∧
      (rs = s.params.spIndex → t.readCell t.sp.toNat = t.sp) ∧
      KeepsRegsBut [s.params.spIndex] s t ∧ KeepsFlags s t ∧ KeepsMemoryBut [t.sp.toNat] s t ∧ KeepsMarksBut [] s t ∧
      KeepsConsole s t ∧ KeepsEngine s t

/-- 45_stack.md rule R222 (decision D25 for Rd = SP): POP loads the word at the stack pointer and then increments the stack
pointer mod 2^16; nothing else changes, whatever the ignored bits. -/
def Obligations.PopLoadsAndIncrementsTheStackPointer : Prop :=
  ∀ (rd : Reg) (ignored : BitVec 8) (s : State), s.sp.toNat < s.params.memWords →
    ∃ t, exec (.pop rd ignored) s = .next t ∧
      (rd ≠ s.params.spIndex → t.readReg rd = s.readCell s.sp.toNat ∧ t.sp.toNat = (s.sp.toNat + 1) % 65536) ∧
      (rd = s.params.spIndex → t.sp.toNat = ((s.readCell s.sp.toNat).toNat + 1) % 65536) ∧
      KeepsRegsBut [rd, s.params.spIndex] s t ∧ KeepsFlags s t ∧ KeepsMemoryBut [] s t ∧ KeepsMarksBut [] s t ∧
      KeepsConsole s t ∧ KeepsEngine s t

/-- 60_exceptions.md rule R252, rows Push and Pop: exactly when they fault, at the port addresses too (20_memory.md rule
R65, decision D15), and that the state is the one before the execute (40_cycle.md rule R119). That the recorded
instruction address (rule R255) is `pc - 1` of the executing state is assumption log entry 14 (DEDUCED). -/
def Obligations.StackAccessesOutsideMemoryFault : Prop :=
  ∀ (r : Reg) (ignored : BitVec 8) (s : State),
    (s.params.memWords ≤ (s.sp.toNat + 0xFFFF) % 65536 ↔
      exec (.push r ignored) s = .fault (.memoryViolation .push (s.pc - 1) ((s.sp.toNat + 0xFFFF) % 65536 : Nat) s)) ∧
    (s.params.memWords ≤ s.sp.toNat ↔
      exec (.pop r ignored) s = .fault (.memoryViolation .pop (s.pc - 1) s.sp.toNat s))

/-- 45_stack.md rule R223: a PUSH that goes through followed by a POP leaves the stack pointer unchanged and the popped
register equal to the pushed one, for a pushed register other than SP and a popped one other than SP and PC; with the
spec's own clauses for SP pushed, SP popped and PC popped. -/
def Obligations.PopAfterPushRestoresTheStackPointer : Prop :=
  ∀ (rs rd : Reg) (x y : BitVec 8) (s t : State), exec (.push rs x) s = .next t →
    ∃ u, exec (.pop rd y) t = .next u ∧
      (rd ≠ s.params.spIndex → u.sp = s.sp) ∧
      (rd ≠ s.params.spIndex → rs ≠ s.params.spIndex → u.readReg rd = s.readReg rs) ∧
      (rd ≠ s.params.spIndex → rs = s.params.spIndex → u.readReg rd = s.sp - 1) ∧
      (rd = s.params.spIndex → rs ≠ s.params.spIndex → u.sp = s.readReg rs + 1) ∧
      (rd = s.params.pcIndex → rd ≠ s.params.spIndex → rs ≠ s.params.spIndex → u.pc = s.readReg rs)

/-! ### HALT -/

/-- 40_cycle.md rule R116: the cycle that fetches 0xFFFF ends Halted, whatever the opcode map; and 46_halt.md rule R235: in
the state after the increment (decision D21), with nothing else changed. That Halted is a next state whose status says so
is the model's form, assumption log entry 8 (DESIGN CHOICE). -/
def Obligations.HaltWordEndsTheRun : Prop :=
  (∀ s : State, ∃ t, exec .halt s = .next t ∧ t.status = .halted ∧
    KeepsRegsBut [] s t ∧ KeepsFlags s t ∧ KeepsMemoryBut [] s t ∧ KeepsMarksBut [] s t ∧ KeepsConsole s t ∧
    t.ir = s.ir ∧ t.pauses = s.pauses ∧ t.cycles = s.cycles ∧ t.params = s.params) ∧
  ∀ s : State, s.status = .running → s.pc.toNat < s.params.memWords → s.readCell s.pc.toNat = 0xFFFF →
    ∃ t, cycleEnd s = .halted t ∧ t.pc = s.pc + 1 ∧ KeepsRegsBut [s.params.pcIndex] s t ∧ KeepsFlags s t ∧
      KeepsMemoryBut [] s t ∧ KeepsMarksBut [] s t ∧ KeepsConsole s t

/-- 60_exceptions.md rule R266: "HALT ends the run and nothing wakes the engine afterwards". That the later steps answer the
same state is the model's choice, assumption log entry 8. -/
def Obligations.NothingRunsAfterHalt : Prop :=
  ∀ s : State, s.status = .halted → ∀ k, Host.Core.run Sys2Proof.core k s = .next s

/-- 46_halt.md rule R236: HALT is the only way a run ends without a fault. That Halted is a next state whose status says so
is the model's form, assumption log entry 8. -/
def Obligations.OnlyTheHaltWordEndsARun : Prop :=
  ∀ s t : State, s.status = .running → cycleEnd s = .halted t →
    s.pc.toNat < s.params.memWords ∧ s.readCell s.pc.toNat = 0xFFFF

/-! ### The cycle -/

/-- 40_cycle.md rules R113 to R117: a step of a running state whose word decodes to `i` is `exec i` at the state with the
word in the instruction register and the program counter incremented. What the model adds around it (the count of cycles
of 70_reset_and_hazards.md rule R287, assumption log entry 13, and the record of a pause, assumption log entry 11) is
stated too. -/
def Obligations.StepRunsTheDecodedInstruction : Prop :=
  ∀ (s : State) (i : Instr), s.status = .running → s.pc.toNat < s.params.memWords →
    decode s.params.opcodeMap (s.readCell s.pc.toNat) = .ok i → pcRefused s.params i = false →
    step s = exec i { s with
      ir := s.readCell s.pc.toNat
      regs := s.regs.set s.params.pcIndex (s.pc + 1)
      cycles := s.cycles + 1
      pauses := if s.pc ∈ s.params.breakpoints then s.pauses ++ [s.pc] else s.pauses }

/-- 40_cycle.md rule R112, whole: a fetch at or above N faults, at the console ports too, and nothing else happens, the
program counter included. (The count of cycles and the record of a pause are not of the rule: assumption log entries 11,
13.) -/
def Obligations.FetchOutsideMemoryFaultsAndDoesNothing : Prop :=
  ∀ s : State, s.status = .running → s.params.memWords ≤ s.pc.toNat →
    ∃ t, step s = .fault (.memoryViolation .fetch s.pc s.pc.toNat t) ∧
      KeepsRegsBut [] s t ∧ KeepsFlags s t ∧ t.mem = s.mem ∧ t.marked = s.marked ∧ KeepsConsole s t ∧
      t.ir = s.ir ∧ t.status = s.status ∧ t.params = s.params

/-- 60_exceptions.md rule R253, whole: UnknownInstruction is raised at decode exactly when the opcode map leaves bits [3:0]
of the fetched word undefined and the word is not 0xFFFF; it records the instruction address and the word; under the
default map no word raises it. -/
def Obligations.UndefinedOpcodesFaultAsUnknownInstruction : Prop :=
  (∀ s : State, s.status = .running → s.pc.toNat < s.params.memWords →
    ((s.params.opcodeMap[(s.readCell s.pc.toNat).toNat % 16]'(by omega) = none ∧ s.readCell s.pc.toNat ≠ 0xFFFF) ↔
      ∃ t, step s = .fault (.unknownInstruction s.pc (s.readCell s.pc.toNat) t))) ∧
  ∀ (s : State) (a ir : Word) (t : State), s.params.opcodeMap = standardOpcodeMap →
    step s ≠ .fault (.unknownInstruction a ir t)

/-- 40_cycle.md rule R118 (decision D3): under `R15_ACCESS` = `refuse` an instruction that names the program counter in a
register field it uses is refused, after the decode and before the execute; under `alias` none is. That the register is the
one `PC_INDEX` gives where that is not 15 is assumption log entry 19 (DEDUCED). -/
def Obligations.PcOperandsAreRefusedOnlyWhenSoSet : Prop :=
  (∀ (s : State) (i : Instr), s.status = .running → s.pc.toNat < s.params.memWords →
    decode s.params.opcodeMap (s.readCell s.pc.toNat) = .ok i → s.params.r15Access = .refuse →
    s.params.pcIndex ∈ usedRegs i → step s = .refused .pcOperand) ∧
  ∀ s : State, s.params.r15Access = .aliased → step s ≠ .refused .pcOperand

/-- 40_cycle.md rule R111 and 70_reset_and_hazards.md rule R287 (decision D22): every cycle, the one that ends in a fetch
fault too, counts one and pauses exactly when its program counter is in the breakpoint set, before the fetch. The record of
pauses and the count are the model's fields, assumption log entries 11 and 13. -/
def Obligations.EveryCycleCountsOneAndPausesAtBreakpoints : Prop :=
  ∀ s : State, s.status = .running →
    (∀ t, step s = .next t → t.cycles = s.cycles + 1 ∧
      t.pauses = s.pauses ++ (if s.pc ∈ s.params.breakpoints then [s.pc] else [])) ∧
    (∀ f, step s = .fault f → f.final.cycles = s.cycles + 1 ∧
      f.final.pauses = s.pauses ++ (if s.pc ∈ s.params.breakpoints then [s.pc] else []))

/-! ### Faults -/

/-- 40_cycle.md rule R119 and 60_exceptions.md rules R255 and R257 (decisions D20, D36): a faulting execute has changed
nothing; the record's instruction address is the address the cycle fetched from; the state has the program counter of a
fetch fault unchanged, of any other fault incremented, and every other register, the flags, memory, bitmap and console as
before the cycle. -/
def Obligations.FaultsArePrecise : Prop :=
  (∀ (i : Instr) (s : State) (f : Fault), exec i s = .fault f → f.final = s) ∧
  ∀ (s : State) (f : Fault), step s = .fault f →
    f.instrAddr = s.pc ∧ KeepsRegsBut [s.params.pcIndex] s f.final ∧ KeepsFlags s f.final ∧ f.final.mem = s.mem ∧
    f.final.marked = s.marked ∧ KeepsConsole s f.final ∧
    (s.params.memWords ≤ s.pc.toNat → f.final.pc = s.pc) ∧ (s.pc.toNat < s.params.memWords → f.final.pc = s.pc + 1)

/-- 60_exceptions.md rules R251, R252 and R254: only LDR, STR, PUSH and POP raise a fatal condition in their execute, each
with its own access kind, and only LDR and STR an IoDirection. That the recorded instruction address (rule R255) is
`pc - 1` of the executing state is assumption log entry 14 (DEDUCED, from 40_cycle.md rules R114 and R119). -/
def Obligations.OnlyMemoryInstructionsFaultInExecute : Prop :=
  ∀ (i : Instr) (s : State) (f : Fault), exec i s = .fault f →
    ∃ access, accessOf i = some access ∧
      ((∃ addr, f = .memoryViolation access (s.pc - 1) addr s) ∨
       ((access = .load ∨ access = .store) ∧ ∃ port ∈ s.params.ports, f = .ioDirection access (s.pc - 1) port s))

/-- 30_encoding.md rule R92 and 40_cycle.md rule R118: a step is refused only under one of the two refusing settings, so
under the default settings no word is refused. -/
def Obligations.StepsAreRefusedOnlyUnderRefusingSettings : Prop :=
  ∀ (s : State) (r : Refusal), step s = .refused r →
    (r = .pcOperand ∧ s.params.r15Access = .refuse) ∨ (r = .shiftCountHigh ∧ s.params.shiftAmount = .refuseHigh)

/-! ### Whole-machine rules -/

/-- 10_state.md rule R27: the flags are "mutated only by arithmetic/logic/compare instructions, never by data-movement or
control-flow instructions"; and C not by AND, OR, SHR and SHL (rule R28). -/
def Obligations.OnlyAluInstructionsWriteTheFlags : Prop :=
  ∀ (i : Instr) (s t : State), exec i s = .next t →
    (writesZ i = false → t.z = s.z) ∧ (writesC i = false → t.c = s.c)

/-- 10_state.md rule R24 (derived by the spec): an instruction writes no register but those of its row. -/
def Obligations.InstructionsWriteOnlyTheirRegisters : Prop :=
  ∀ (i : Instr) (s t : State), exec i s = .next t → KeepsRegsBut (registersWritten s.params i) s t

/-- 10_state.md rules R24 and R30 (decision D23): a cell changes only by STR or PUSH, and only the one they store to; a bit
of the access bitmap only by LDR or STR of a physical cell, which set it. -/
def Obligations.OnlyTheStoredCellAndTheMarkedBitChange : Prop :=
  ∀ (i : Instr) (s t : State), exec i s = .next t →
    (∀ a, storedCell i s ≠ some a → t.readCell a = s.readCell a) ∧
    (∀ a, markedCell i s ≠ some a → (a ∈ t.marked ↔ a ∈ s.marked)) ∧
    (∀ a, markedCell i s = some a → a ∈ t.marked)

/-- 10_state.md rule R34 and 20_memory.md rule R68: console events are never taken back; a cycle appends at most one. -/
def Obligations.TheConsoleTraceOnlyGrows : Prop :=
  ∀ s t : State, step s = .next t → ∃ es : List IoEvent, t.trace = s.trace ++ es ∧ es.length ≤ 1

/-- 70_reset_and_hazards.md rule R283 (decision D32): the launch parameters do not change during a run, however long.
That they are a record in State is assumption log entry 2. -/
def Obligations.TheParametersNeverChange : Prop :=
  ∀ (k : Nat) (s t : State), Host.Core.run Sys2Proof.core k s = .next t → t.params = s.params

/-- 10_state.md rules R30, R31, R33, R34 and 60_exceptions.md rule R265: the access bitmap, the console trace, the old
instruction register, the breakpoint set, the pauses and the count of cycles influence nothing else: erasing them before a
step gives the same answer, up to themselves. The pauses and the count are the model's fields, assumption log entries 11
(which assumes that the host always resumes, unsafe) and 13. -/
def Obligations.ObservationsInfluenceNothing : Prop :=
  ∀ s : State, unobservedResult (step s) = unobservedResult (step s.unobserved)

/-- 10_state.md rule R37, rule R30, 00_scope.md rule R8: every step from a well-formed state leaves a well-formed state, in
its next state or in the state its fault carries: memory and bitmap canonical (the model's form, assumption log entry 1)
and within cells 0..N-1, the launch parameters as the spec admits them (assumption log entry 20). -/
def Obligations.StepKeepsStatesWellFormed : Prop :=
  ∀ s : State, s.wf → (∀ t, step s = .next t → t.wf) ∧ (∀ f, step s = .fault f → f.final.wf)

/-- The state after reset is well formed, in the sense of StepKeepsStatesWellFormed (assumption log entries 1, 3, 20). -/
def Obligations.ResetIsWellFormed : Prop := State.reset.wf

/-- 10_state.md rule R37 (the canonical form is the model's: assumption log entry 1): two canonical memories that read the
same in every cell are the same data. -/
def Obligations.CanonicalMemoriesAreEqualWhenTheyReadAlike : Prop :=
  ∀ m m' : Memory, m.wf → m'.wf → (∀ a, m.read a = m'.read a) → m = m'

/-! ### Programs that the rules describe -/

/-- 43_control.md rules R181 and R187, 60_exceptions.md rule R267: JMP -1 at an address in memory jumps to itself and the
run never ends. That it goes on where the program counter is a breakpoint assumes that the host resumes (decision D22;
assumption log entry 11, unsafe), and the count of cycles is the model's field, assumption log entry 13. -/
def Obligations.JumpToItselfRunsForEver : Prop :=
  ∀ s : State, s.status = .running → s.pc.toNat < s.params.memWords →
    s.readCell s.pc.toNat = 0xFFF0 → s.params.opcodeMap = standardOpcodeMap →
    ∀ k, ∃ t, Host.Core.run Sys2Proof.core k s = .next t ∧ t.status = .running ∧ OnlyRegs [] { s with
      ir := t.ir
      cycles := s.cycles + k
      pauses := t.pauses } t

/-- 30_encoding.md rule R99 (derived by the spec): the zero word continues at the next instruction and changes nothing
else. -/
def Obligations.TheZeroWordOnlyAdvancesThePc : Prop :=
  ∀ s : State, s.status = .running → s.pc.toNat < s.params.memWords → s.readCell s.pc.toNat = 0 →
    s.params.opcodeMap = standardOpcodeMap →
    ∃ t, step s = .next t ∧ t.pc = s.pc + 1 ∧ KeepsRegsBut [s.params.pcIndex] s t ∧ KeepsFlags s t ∧
      KeepsMemoryBut [] s t ∧ KeepsMarksBut [] s t ∧ KeepsConsole s t ∧ t.status = .running ∧ t.params = s.params

/-! ### Reset and launch -/

/-- 10_state.md rule R38 (decisions D9, D10, D11, D23; the reset values of IR and of the model's own fields are assumption
log entries 10 to 13): the values after reset, for launch parameters with two registers for SP and PC, and for the
defaults, with N = 0x0100 (assumption log entry 3). -/
def Obligations.ResetGivesTheValuesOfTheTable : Prop :=
  (∀ p : Params, p.spIndex ≠ p.pcIndex →
    (State.resetWith p).pc = 0 ∧ (State.resetWith p).sp = p.spReset ∧
    (∀ r, r ≠ p.spIndex → r ≠ p.pcIndex → (State.resetWith p).readReg r = p.initGpr[r]) ∧
    (State.resetWith p).z = p.initZ ∧ (State.resetWith p).c = p.initC ∧
    (∀ a, (State.resetWith p).readCell a = 0) ∧ (State.resetWith p).marked = [] ∧ (State.resetWith p).trace = []) ∧
  State.reset.readReg 15 = 0 ∧ State.reset.readReg 14 = 0x0100 ∧
  (∀ r : Reg, r.val < 14 → State.reset.readReg r = 0) ∧ State.reset.z = false ∧ State.reset.c = false

/-- 70_reset_and_hazards.md rules R280 and R282 (decision D26): a valid launch starts in the reset state with each listed
address holding its word and every other cell 0, nothing marked; an image with an address at or above N is refused. That a
list with one address twice is refused too is the model's choice, assumption log entry 22; the form of memory, the
answers, the bounds of the parameters and the reset values that the table of rule R38 does not give are assumption log
entries 1, 8, 10, 11, 12, 13 and 20. -/
def Obligations.LaunchPlacesTheImageOrRefusesIt : Prop :=
  ∀ (p : Params) (image : Image) (answers : List Word), p.wf = true →
    ((∀ cell ∈ image, cell.1 < p.memWords) → (image.map (·.1)).Nodup →
      ∃ t, launch p image answers = .next t ∧ (∀ cell ∈ image, t.readCell cell.1 = cell.2) ∧
        (∀ a, (∀ cell ∈ image, cell.1 ≠ a) → t.readCell a = 0) ∧
        { t with mem := [], answers := [] } = State.resetWith p ∧ t.answers = answers ∧ t.wf) ∧
    ((∃ cell ∈ image, p.memWords ≤ cell.1) ∨ ¬ (image.map (·.1)).Nodup →
      launch p image answers = .refused .invalidImage)
end

