-- ==== Sys2Proof/Laws/Decode.lean ====
section
/-! SUPPORT. Words, fields and operand bits as numbers; the unpacker on a word given by its operand bits and its opcode,
and the word given by its unpacked fields. -/

namespace Sys2Proof

/-! ### Words and operand bits as numbers -/

theorem toNat_append_eq {m n : Nat} (a : BitVec m) (b : BitVec n) : (a ++ b).toNat = a.toNat * 2 ^ n + b.toNat := by
  rw [BitVec.toNat_append, Nat.shiftLeft_eq, Nat.mul_comm, Nat.two_pow_add_eq_or_of_lt b.isLt]

@[simp] theorem toNat_joinWord (b : BitVec 12) (op : BitVec 4) : (joinWord b op).toNat = b.toNat * 16 + op.toNat :=
  toNat_append_eq b op

@[simp] theorem toNat_nibbles (a b c : BitVec 4) : (nibbles a b c).toNat = a.toNat * 256 + b.toNat * 16 + c.toNat := by
  have h := (toNat_append_eq (a ++ b) c).trans (by rw [toNat_append_eq a b])
  exact h.trans (by omega)

@[simp] theorem toNat_condBits (a : BitVec 2) (b : BitVec 10) : (condBits a b).toNat = a.toNat * 1024 + b.toNat :=
  toNat_append_eq a b

@[simp] theorem toNat_regByte (a : BitVec 4) (b : BitVec 8) : (regByte a b).toNat = a.toNat * 256 + b.toNat :=
  toNat_append_eq a b

@[simp] theorem toNat_regBits (r : Reg) : (regBits r).toNat = r.val := rfl

@[simp] theorem toNat_extract {n : Nat} (w : BitVec n) (lo len : Nat) :
    (w.extractLsb' lo len).toNat = w.toNat / 2 ^ lo % 2 ^ len := by
  rw [BitVec.extractLsb'_toNat, Nat.shiftRight_eq_div_pow]

/-- The fields of a word as numbers (30_encoding.md rule R82). -/
theorem unpack_toNat (w : Word) :
    (unpack w).op.toNat = w.toNat % 16 ∧ (unpack w).rd.val = w.toNat / 4096 % 16 ∧
    (unpack w).rm.val = w.toNat / 256 % 16 ∧ (unpack w).rn.val = w.toNat / 16 % 16 ∧
    (unpack w).hi4.toNat = w.toNat / 4096 % 16 ∧ (unpack w).imm4.toNat = w.toNat / 16 % 16 ∧
    (unpack w).imm8.toNat = w.toNat / 16 % 256 ∧ (unpack w).imm10.toNat = w.toNat / 16 % 1024 ∧
    (unpack w).imm12.toNat = w.toNat / 16 % 4096 ∧ (unpack w).cond.toNat = w.toNat / 16384 % 4 := by
  refine ⟨?_, ?_, ?_, ?_, ?_, ?_, ?_, ?_, ?_, ?_⟩ <;> simp [unpack, Nat.shiftRight_eq_div_pow]

@[simp] theorem unpack_joinWord_op (b : BitVec 12) (op : BitVec 4) : (unpack (joinWord b op)).op = op := by
  have := op.isLt
  apply BitVec.eq_of_toNat_eq
  rw [(unpack_toNat _).1, toNat_joinWord]
  omega

/-! ### The conditional jumps -/

theorem condJump_kind (cond : BitVec 2) (imm10 : BitVec 10) : (condJump cond imm10).kind = some .jcc := by
  unfold condJump; split <;> rfl

theorem operandBits_condJump (cond : BitVec 2) (imm10 : BitVec 10) : operandBits (condJump cond imm10) = condBits cond imm10 := by
  have h : ∀ c : BitVec 2, c = 0 ∨ c = 1 ∨ c = 2 ∨ c = 3 := by decide
  rcases h cond with rfl | rfl | rfl | rfl <;> rfl

/-! ### The instruction of a kind has that kind, and gives its word back -/

theorem build_kind (k : Kind) (f : Fields) : (build k f).kind = some k := by
  cases k <;> first | rfl | exact condJump_kind ..

/-- No bit of a word is lost: the operand bits of the instruction built from its fields are its bits 15..4. -/
theorem operandBits_build (k : Kind) (w : Word) : operandBits (build k (unpack w)) = w.extractLsb' 4 12 := by
  obtain ⟨-, h1, h2, h3, h4, h5, h6, h7, h8, h9⟩ := unpack_toNat w
  have := w.isLt
  apply BitVec.eq_of_toNat_eq
  rw [toNat_extract]
  cases k
  case jcc => rw [build, operandBits_condJump, toNat_condBits]; omega
  all_goals simp only [build, operandBits, toNat_nibbles, toNat_regByte, toNat_regBits]; omega

theorem joinWord_unpack (w : Word) : joinWord (w.extractLsb' 4 12) (unpack w).op = w := by
  have := w.isLt
  apply BitVec.eq_of_toNat_eq
  rw [toNat_joinWord, (unpack_toNat w).1, toNat_extract]
  omega

/-- The operand bits are all ones exactly when the fields are. -/
theorem fieldsAllOnes_iff (i : Instr) : i.fieldsAllOnes = true ↔ operandBits i = 0xFFF := by
  have e12 : ∀ a : BitVec 12, a = 0xFFF ↔ a.toNat = 4095 := fun a => BitVec.toNat_eq
  have e10 : ∀ a : BitVec 10, a = 0x3FF ↔ a.toNat = 1023 := fun a => BitVec.toNat_eq
  have e8 : ∀ a : BitVec 8, a = 0xFF ↔ a.toNat = 255 := fun a => BitVec.toNat_eq
  have e4 : ∀ a : BitVec 4, a = 0xF ↔ a.toNat = 15 := fun a => BitVec.toNat_eq
  have er : ∀ r : Reg, r = 15 ↔ r.val = 15 := fun r => Fin.ext_iff
  cases i <;>
    simp only [Instr.fieldsAllOnes, operandBits, Bool.and_eq_true, beq_iff_eq, er, e12, e10, e8, e4, toNat_nibbles,
      toNat_condBits, toNat_regByte, toNat_regBits, BitVec.reduceToNat, Bool.false_eq_true, false_iff] <;>
    omega

/-- A word is the word of HALT exactly when its operand bits and its opcode are all ones. -/
theorem joinWord_eq_haltWord (b : BitVec 12) (op : BitVec 4) : joinWord b op = haltWord ↔ b = 0xFFF ∧ op = 0xF := by
  have := b.isLt
  have := op.isLt
  simp only [BitVec.toNat_eq, toNat_joinWord, haltWord, BitVec.reduceToNat]
  omega

/-! ### The opcode map -/

theorem opcodeOf_sound {m : OpcodeMap} {k : Kind} {op : BitVec 4} (h : m.opcodeOf k = some op) :
    m.kindOf op = some k := by
  unfold OpcodeMap.opcodeOf at h
  rw [Option.map_eq_some_iff] at h
  obtain ⟨r, hr, rfl⟩ := h
  simpa [OpcodeMap.kindOf] using List.find?_some hr

theorem opcodeOf_standard (op : BitVec 4) {k : Kind} (h : standardOpcodeMap.kindOf op = some k) :
    standardOpcodeMap.opcodeOf k = some op := by
  revert op k
  decide

end Sys2Proof
end

