-- ==== Sys2Proof/Laws/Memory.lean ====
section
/-! SUPPORT. What the operations on memory and on the access bitmap do, and that they keep the canonical form. -/

namespace Sys2Proof.Machine

/-! ### Reading -/

@[simp] theorem Memory.read_nil (a : Nat) : Memory.read [] a = Memory.unlisted := rfl

@[simp] theorem Memory.read_cons (k : Nat) (v : Word) (rest : Memory) (a : Nat) :
    Memory.read ((k, v) :: rest) a = if k = a then v else Memory.read rest a := rfl

theorem Memory.read_of_not_listed {m : Memory} {a : Nat} (h : ∀ cell ∈ m, cell.1 ≠ a) :
    m.read a = Memory.unlisted := by
  induction m with
  | nil => rfl
  | cons cell rest ih =>
    obtain ⟨k, v⟩ := cell
    have hk : k ≠ a := h _ (List.mem_cons_self ..)
    simp [hk, ih fun c hc => h c (List.mem_cons_of_mem _ hc)]

theorem Memory.read_erase (m : Memory) (a b : Nat) :
    (m.erase a).read b = if b = a then Memory.unlisted else m.read b := by
  induction m with
  | nil => simp [Memory.erase]
  | cons cell rest ih =>
    obtain ⟨k, v⟩ := cell
    unfold Memory.erase at ih ⊢
    by_cases hk : k = a
    · subst hk
      by_cases hb : b = k
      · simpa [hb] using ih
      · simp [hb, Ne.symm hb] at ih ⊢; exact ih
    · by_cases hb : b = a
      · simp [hk, hb] at ih ⊢; exact ih
      · simp [hk, hb] at ih ⊢; rw [ih]

theorem Memory.read_insert {m : Memory} {a : Nat} (h : ∀ cell ∈ m, cell.1 ≠ a) (v : Word) (b : Nat) :
    (m.insert a v).read b = if b = a then v else m.read b := by
  induction m with
  | nil => simp [Memory.insert, eq_comm]
  | cons cell rest ih =>
    obtain ⟨k, u⟩ := cell
    have hk : k ≠ a := h _ (List.mem_cons_self ..)
    have ih := ih fun c hc => h c (List.mem_cons_of_mem _ hc)
    unfold Memory.insert
    split
    · simp [eq_comm]
    · by_cases hb : b = a
      · subst hb; simp [hk, ih]
      · simp [ih, hb]

theorem Memory.erase_not_listed (m : Memory) (a : Nat) : ∀ cell ∈ m.erase a, cell.1 ≠ a := by
  intro cell hc
  simpa using (List.mem_filter.1 hc).2

/-- A read after a write: the written word in the written cell, every other cell as before. It needs no canonical form. -/
theorem Memory.read_write (m : Memory) (a : Nat) (v : Word) (b : Nat) :
    (m.write a v).read b = if b = a then v else m.read b := by
  unfold Memory.write
  split
  · next hv => rw [Memory.read_erase, hv]
  · rw [Memory.read_insert (Memory.erase_not_listed m a), Memory.read_erase]
    split <;> rfl

@[simp] theorem State.readCell_writeCell (s : State) (a : Nat) (v : Word) (b : Nat) :
    (s.writeCell a v).readCell b = if b = a then v else s.readCell b :=
  Memory.read_write s.mem a v b

/-! ### The canonical form -/

theorem Memory.mem_insert {m : Memory} {a : Nat} {v : Word} {cell : Nat × Word} :
    cell ∈ m.insert a v ↔ cell = (a, v) ∨ cell ∈ m := by
  induction m with
  | nil => simp [Memory.insert]
  | cons c rest ih =>
    obtain ⟨k, u⟩ := c
    unfold Memory.insert
    split
    · simp
    · simp only [List.mem_cons, ih]; tauto

theorem Memory.mem_write {m : Memory} {a : Nat} {v : Word} {cell : Nat × Word} (h : cell ∈ m.write a v) :
    cell = (a, v) ∨ cell ∈ m := by
  unfold Memory.write at h
  split at h
  · exact .inr (List.mem_of_mem_filter h)
  · rcases Memory.mem_insert.1 h with rfl | h
    · exact .inl rfl
    · exact .inr (List.mem_of_mem_filter h)

theorem Memory.wf_erase {m : Memory} (h : m.wf) (a : Nat) : (m.erase a).wf :=
  ⟨h.1.filter _, fun cell hc => h.2 cell (List.mem_of_mem_filter hc)⟩

theorem Memory.wf_insert {m : Memory} (h : m.wf) {a : Nat} (ha : ∀ cell ∈ m, cell.1 ≠ a) {v : Word}
    (hv : v ≠ Memory.unlisted) : (m.insert a v).wf := by
  refine ⟨?_, fun cell hc => ?_⟩
  · have hs := h.1
    clear h
    induction m with
    | nil => simp [Memory.insert]
    | cons c rest ih =>
      obtain ⟨k, u⟩ := c
      have hk : k ≠ a := ha _ (List.mem_cons_self ..)
      rw [List.pairwise_cons] at hs
      unfold Memory.insert
      split
      · next hlt =>
        refine List.pairwise_cons.2 ⟨fun d hd => ?_, List.pairwise_cons.2 hs⟩
        rcases List.mem_cons.1 hd with rfl | hd
        · exact hlt
        · exact lt_trans hlt (hs.1 d hd)
      · next hlt =>
        refine List.pairwise_cons.2 ⟨fun d hd => ?_, ih (fun d hd => ha d (List.mem_cons_of_mem _ hd)) hs.2⟩
        rcases Memory.mem_insert.1 hd with rfl | hd
        · exact lt_of_le_of_ne (not_lt.1 hlt) hk
        · exact hs.1 d hd
  · rcases Memory.mem_insert.1 hc with rfl | hc
    · exact hv
    · exact h.2 cell hc

/-- A write keeps the canonical form. -/
theorem Memory.wf_write {m : Memory} (h : m.wf) (a : Nat) (v : Word) : (m.write a v).wf := by
  unfold Memory.write
  split
  · exact Memory.wf_erase h a
  · next hv => exact Memory.wf_insert (Memory.wf_erase h a) (Memory.erase_not_listed m a) hv

theorem Memory.wf_nil : Memory.wf [] := by simp [Memory.wf]

/-- In a canonical memory the first cell is the lowest that reads as something else than an unlisted cell. -/
theorem Memory.read_below {k : Nat} {v : Word} {rest : Memory} (h : Memory.wf ((k, v) :: rest)) {a : Nat} (ha : a < k) :
    Memory.read ((k, v) :: rest) a = Memory.unlisted := by
  refine Memory.read_of_not_listed fun cell hc => ?_
  rcases List.mem_cons.1 hc with rfl | hc
  · exact (ne_of_lt ha).symm
  · exact (ne_of_lt (lt_trans ha ((List.pairwise_cons.1 h.1).1 cell hc))).symm

/-! ### The access bitmap -/

@[simp] theorem mem_markBit (bits : List Nat) (a b : Nat) : b ∈ markBit bits a ↔ b = a ∨ b ∈ bits := by
  induction bits with
  | nil => simp [markBit]
  | cons k rest ih =>
    unfold markBit
    split
    · simp
    · split
      · next h => subst h; simp
      · simp only [List.mem_cons, ih]; tauto

/-- Setting a bit keeps the list of the set bits strictly rising. -/
theorem rising_markBit {bits : List Nat} (h : bits.Pairwise (· < ·)) (a : Nat) : (markBit bits a).Pairwise (· < ·) := by
  induction bits with
  | nil => simp [markBit]
  | cons k rest ih =>
    rw [List.pairwise_cons] at h
    unfold markBit
    split
    · next hlt =>
      refine List.pairwise_cons.2 ⟨fun d hd => ?_, List.pairwise_cons.2 h⟩
      rcases List.mem_cons.1 hd with rfl | hd
      · exact hlt
      · exact lt_trans hlt (h.1 d hd)
    · split
      · exact List.pairwise_cons.2 h
      · next hlt hne =>
        refine List.pairwise_cons.2 ⟨fun d hd => ?_, ih h.2⟩
        rcases (mem_markBit rest a d).1 hd with rfl | hd
        · exact lt_of_le_of_ne (not_lt.1 hlt) (Ne.symm hne)
        · exact h.1 d hd

end Sys2Proof.Machine
end

