-- ==== Sys2Proof/Laws/Operands.lean ====
section
/-! SUPPORT. The values of the operand forms, and what lies where for LDR and STR. -/

namespace Sys2Proof.Machine

/-! ### Immediates -/

theorem xor_two_pow_of_lt {m k : Nat} (h : k < 2 ^ m) : k ^^^ 2 ^ m = k + 2 ^ m := by
  rw [Nat.add_comm, Nat.xor_comm]
  have := Nat.two_pow_add_eq_or_of_lt h 1
  simp only [Nat.mul_one] at this
  rw [this]
  refine Nat.eq_of_testBit_eq fun i => ?_
  simp only [Nat.testBit_xor, Nat.testBit_or, Nat.testBit_two_pow]
  by_cases hi : m = i
  · subst hi; simp [Nat.testBit_lt_two_pow h]
  · simp [hi]

theorem xor_two_pow_of_ge {m k : Nat} (h : 2 ^ m ≤ k) (h' : k < 2 ^ (m + 1)) : k ^^^ 2 ^ m = k - 2 ^ m := by
  obtain ⟨j, rfl⟩ := Nat.exists_eq_add_of_le h
  have hj : j < 2 ^ m := by rw [Nat.pow_succ] at h'; omega
  rw [Nat.add_comm, ← xor_two_pow_of_lt hj, Nat.xor_assoc, Nat.xor_self, Nat.xor_zero]
  rw [xor_two_pow_of_lt hj]; omega

/-- The source's routine computes the two's-complement value (00_scope.md rule R10). -/
theorem simm_eq_toInt {n : Nat} (v : BitVec n) : simm v = v.toInt := by
  cases n with
  | zero => have : v = 0#0 := BitVec.eq_of_toNat_eq (by omega)
            subst this; rfl
  | succ m =>
    have hv := v.isLt
    unfold simm
    simp only [Nat.add_sub_cancel]
    rw [BitVec.toInt_eq_toNat_cond]
    by_cases h : v.toNat < 2 ^ m
    · rw [xor_two_pow_of_lt h, if_pos (by rw [Nat.pow_succ]; omega)]
      push_cast; omega
    · rw [xor_two_pow_of_ge (not_lt.1 h) hv, if_neg (by rw [Nat.pow_succ]; omega)]
      have h1 : 2 ^ m ≤ v.toNat := not_lt.1 h
      push_cast [h1, Nat.pow_succ, pow_succ]; omega

/-- An N-bit immediate, N at most 16, keeps its value as a word. -/
theorem toInt_sext {n : Nat} (hn : n ≤ 16) (v : BitVec n) : (sext v).toInt = v.toInt := by
  unfold sext
  rw [simm_eq_toInt, BitVec.toInt_ofInt]
  have h1 := BitVec.le_toInt v
  have h2 := BitVec.toInt_lt (x := v)
  cases n with
  | zero => have : v = 0#0 := BitVec.eq_of_toNat_eq (by omega)
            subst this; rfl
  | succ m =>
    have hm : (2 : Int) ^ m ≤ 2 ^ 15 := by
      have : (2 : Nat) ^ m ≤ 2 ^ 15 := Nat.pow_le_pow_right (by omega) (by omega)
      exact_mod_cast this
    simp only [Nat.add_sub_cancel] at h1 h2
    apply Int.bmod_eq_of_le <;> norm_num at * <;> omega

/-- The word of an immediate as an unsigned value: its two's-complement value mod 2^16. -/
theorem toNat_sext {n : Nat} (v : BitVec n) : ((sext v).toNat : Int) = v.toInt % 65536 := by
  unfold sext
  rw [simm_eq_toInt]
  simp [BitVec.toNat_ofInt]
  omega

@[simp] theorem shiftCount_eq (imm4 : BitVec 4) : shiftCount imm4 = imm4.toNat := by
  have := imm4.isLt
  simp [shiftCount]; omega

/-! ### Words from exact integers -/

@[simp] theorem toNat_sumWord (a b : Word) : (sumWord a b).toNat = (a.toNat + b.toNat) % 65536 := by
  simp [sumWord]

@[simp] theorem toNat_diffWord (a b : Word) :
    ((diffWord a b).toNat : Int) = ((a.toNat : Int) - (b.toNat : Int)) % 65536 := by
  simp [diffWord, BitVec.toNat_ofInt]; omega

@[simp] theorem toNat_jumpTarget (pc : Word) (offset : Int) :
    ((jumpTarget pc offset).toNat : Int) = ((pc.toNat : Int) + offset) % 65536 := by
  simp [jumpTarget, BitVec.toNat_ofInt]; omega

theorem zeroFlag_iff (v : Word) : zeroFlag v = true ↔ v.toNat = 0 := by
  simp [zeroFlag, BitVec.toNat_eq]

/-- Equal words have the difference 0, and only they. -/
theorem zeroFlag_diffWord (a b : Word) : zeroFlag (diffWord a b) = true ↔ a = b := by
  have := toNat_diffWord a b
  rw [zeroFlag_iff, BitVec.toNat_eq]; omega

/-! ### What lies at an effective address -/

/-- Everything the classification can answer (44_memory_access.md rule R200): each answer and what it says of the address. -/
theorem placeOf_cases (p : Params) (ea : Int) :
    (∃ a : Nat, placeOf p ea = .cell a ∧ ea = a ∧ a < p.memWords ∧ ∀ port ∈ p.ports, a ≠ port.toNat) ∨
    (placeOf p ea = .charIn ∧ ea = p.ioCharIn.toNat) ∨ (placeOf p ea = .intIn ∧ ea = p.ioIntIn.toNat) ∨
    (placeOf p ea = .charOut ∧ ea = p.ioCharOut.toNat) ∨ (placeOf p ea = .intOut ∧ ea = p.ioIntOut.toNat) ∨
    (placeOf p ea = .outside ∧
      (ea < 0 ∨ 0xFFFF < ea ∨ (p.memWords : Int) ≤ ea ∧ ∀ port ∈ p.ports, ea ≠ port.toNat)) := by
  unfold placeOf
  split_ifs with h h1 h2 h3 h4 h5
  · right; right; right; right; right
    exact ⟨rfl, h.elim .inl fun h => .inr (.inl h)⟩
  · exact .inr (.inl ⟨rfl, h1⟩)
  · exact .inr (.inr (.inl ⟨rfl, h2⟩))
  · exact .inr (.inr (.inr (.inl ⟨rfl, h3⟩)))
  · exact .inr (.inr (.inr (.inr (.inl ⟨rfl, h4⟩))))
  · refine .inl ⟨ea.toNat, rfl, by omega, h5, fun port hp => ?_⟩
    simp only [Params.ports, List.mem_cons, List.not_mem_nil, or_false] at hp
    rcases hp with rfl | rfl | rfl | rfl <;> omega
  · right; right; right; right; right
    refine ⟨rfl, .inr (.inr ⟨by omega, fun port hp => ?_⟩)⟩
    simp only [Params.ports, List.mem_cons, List.not_mem_nil, or_false] at hp
    rcases hp with rfl | rfl | rfl | rfl <;> omega

theorem placeOf_cell {p : Params} {ea : Int} {a : Nat} (h : placeOf p ea = .cell a) :
    ea = a ∧ a < p.memWords ∧ ∀ port ∈ p.ports, a ≠ port.toNat := by
  rcases placeOf_cases p ea with ⟨b, hb, h1⟩ | ⟨hb, _⟩ | ⟨hb, _⟩ | ⟨hb, _⟩ | ⟨hb, _⟩ | ⟨hb, _⟩ <;>
    rw [hb] at h <;> cases h
  exact h1

end Sys2Proof.Machine
end

