-- ==== Sys2Proof/Laws/State.lean ====
section
/-! SUPPORT. The small lemmas of State: one per field per update, true by rfl, then what reading a register or a cell gives
after each update, and the composite updates brought down to the plain ones. -/

namespace Sys2Proof.Machine

variable (s : State)

/-! ### writeReg -/

@[simp] theorem State.writeReg_regs (r : Reg) (v : Word) : (s.writeReg r v).regs = s.regs.set r v := rfl
@[simp] theorem State.writeReg_z (r : Reg) (v : Word) : (s.writeReg r v).z = s.z := rfl
@[simp] theorem State.writeReg_c (r : Reg) (v : Word) : (s.writeReg r v).c = s.c := rfl
@[simp] theorem State.writeReg_mem (r : Reg) (v : Word) : (s.writeReg r v).mem = s.mem := rfl
@[simp] theorem State.writeReg_marked (r : Reg) (v : Word) : (s.writeReg r v).marked = s.marked := rfl
@[simp] theorem State.writeReg_trace (r : Reg) (v : Word) : (s.writeReg r v).trace = s.trace := rfl
@[simp] theorem State.writeReg_ir (r : Reg) (v : Word) : (s.writeReg r v).ir = s.ir := rfl
@[simp] theorem State.writeReg_status (r : Reg) (v : Word) : (s.writeReg r v).status = s.status := rfl
@[simp] theorem State.writeReg_pauses (r : Reg) (v : Word) : (s.writeReg r v).pauses = s.pauses := rfl
@[simp] theorem State.writeReg_answers (r : Reg) (v : Word) : (s.writeReg r v).answers = s.answers := rfl
@[simp] theorem State.writeReg_draws (r : Reg) (v : Word) : (s.writeReg r v).draws = s.draws := rfl
@[simp] theorem State.writeReg_cycles (r : Reg) (v : Word) : (s.writeReg r v).cycles = s.cycles := rfl
@[simp] theorem State.writeReg_params (r : Reg) (v : Word) : (s.writeReg r v).params = s.params := rfl

/-! ### setZ -/

@[simp] theorem State.setZ_regs (b : Bool) : (s.setZ b).regs = s.regs := rfl
@[simp] theorem State.setZ_z (b : Bool) : (s.setZ b).z = b := rfl
@[simp] theorem State.setZ_c (b : Bool) : (s.setZ b).c = s.c := rfl
@[simp] theorem State.setZ_mem (b : Bool) : (s.setZ b).mem = s.mem := rfl
@[simp] theorem State.setZ_marked (b : Bool) : (s.setZ b).marked = s.marked := rfl
@[simp] theorem State.setZ_trace (b : Bool) : (s.setZ b).trace = s.trace := rfl
@[simp] theorem State.setZ_ir (b : Bool) : (s.setZ b).ir = s.ir := rfl
@[simp] theorem State.setZ_status (b : Bool) : (s.setZ b).status = s.status := rfl
@[simp] theorem State.setZ_pauses (b : Bool) : (s.setZ b).pauses = s.pauses := rfl
@[simp] theorem State.setZ_answers (b : Bool) : (s.setZ b).answers = s.answers := rfl
@[simp] theorem State.setZ_draws (b : Bool) : (s.setZ b).draws = s.draws := rfl
@[simp] theorem State.setZ_cycles (b : Bool) : (s.setZ b).cycles = s.cycles := rfl
@[simp] theorem State.setZ_params (b : Bool) : (s.setZ b).params = s.params := rfl

/-! ### setC -/

@[simp] theorem State.setC_regs (b : Bool) : (s.setC b).regs = s.regs := rfl
@[simp] theorem State.setC_z (b : Bool) : (s.setC b).z = s.z := rfl
@[simp] theorem State.setC_c (b : Bool) : (s.setC b).c = b := rfl
@[simp] theorem State.setC_mem (b : Bool) : (s.setC b).mem = s.mem := rfl
@[simp] theorem State.setC_marked (b : Bool) : (s.setC b).marked = s.marked := rfl
@[simp] theorem State.setC_trace (b : Bool) : (s.setC b).trace = s.trace := rfl
@[simp] theorem State.setC_ir (b : Bool) : (s.setC b).ir = s.ir := rfl
@[simp] theorem State.setC_status (b : Bool) : (s.setC b).status = s.status := rfl
@[simp] theorem State.setC_pauses (b : Bool) : (s.setC b).pauses = s.pauses := rfl
@[simp] theorem State.setC_answers (b : Bool) : (s.setC b).answers = s.answers := rfl
@[simp] theorem State.setC_draws (b : Bool) : (s.setC b).draws = s.draws := rfl
@[simp] theorem State.setC_cycles (b : Bool) : (s.setC b).cycles = s.cycles := rfl
@[simp] theorem State.setC_params (b : Bool) : (s.setC b).params = s.params := rfl

/-! ### writeCell -/

@[simp] theorem State.writeCell_regs (a : Nat) (v : Word) : (s.writeCell a v).regs = s.regs := rfl
@[simp] theorem State.writeCell_z (a : Nat) (v : Word) : (s.writeCell a v).z = s.z := rfl
@[simp] theorem State.writeCell_c (a : Nat) (v : Word) : (s.writeCell a v).c = s.c := rfl
@[simp] theorem State.writeCell_mem (a : Nat) (v : Word) : (s.writeCell a v).mem = s.mem.write a v := rfl
@[simp] theorem State.writeCell_marked (a : Nat) (v : Word) : (s.writeCell a v).marked = s.marked := rfl
@[simp] theorem State.writeCell_trace (a : Nat) (v : Word) : (s.writeCell a v).trace = s.trace := rfl
@[simp] theorem State.writeCell_ir (a : Nat) (v : Word) : (s.writeCell a v).ir = s.ir := rfl
@[simp] theorem State.writeCell_status (a : Nat) (v : Word) : (s.writeCell a v).status = s.status := rfl
@[simp] theorem State.writeCell_pauses (a : Nat) (v : Word) : (s.writeCell a v).pauses = s.pauses := rfl
@[simp] theorem State.writeCell_answers (a : Nat) (v : Word) : (s.writeCell a v).answers = s.answers := rfl
@[simp] theorem State.writeCell_draws (a : Nat) (v : Word) : (s.writeCell a v).draws = s.draws := rfl
@[simp] theorem State.writeCell_cycles (a : Nat) (v : Word) : (s.writeCell a v).cycles = s.cycles := rfl
@[simp] theorem State.writeCell_params (a : Nat) (v : Word) : (s.writeCell a v).params = s.params := rfl

/-! ### mark -/

@[simp] theorem State.mark_regs (a : Nat) : (s.mark a).regs = s.regs := rfl
@[simp] theorem State.mark_z (a : Nat) : (s.mark a).z = s.z := rfl
@[simp] theorem State.mark_c (a : Nat) : (s.mark a).c = s.c := rfl
@[simp] theorem State.mark_mem (a : Nat) : (s.mark a).mem = s.mem := rfl
@[simp] theorem State.mark_marked (a : Nat) : (s.mark a).marked = markBit s.marked a := rfl
@[simp] theorem State.mark_trace (a : Nat) : (s.mark a).trace = s.trace := rfl
@[simp] theorem State.mark_ir (a : Nat) : (s.mark a).ir = s.ir := rfl
@[simp] theorem State.mark_status (a : Nat) : (s.mark a).status = s.status := rfl
@[simp] theorem State.mark_pauses (a : Nat) : (s.mark a).pauses = s.pauses := rfl
@[simp] theorem State.mark_answers (a : Nat) : (s.mark a).answers = s.answers := rfl
@[simp] theorem State.mark_draws (a : Nat) : (s.mark a).draws = s.draws := rfl
@[simp] theorem State.mark_cycles (a : Nat) : (s.mark a).cycles = s.cycles := rfl
@[simp] theorem State.mark_params (a : Nat) : (s.mark a).params = s.params := rfl

/-! ### emit -/

@[simp] theorem State.emit_regs (e : IoEvent) : (s.emit e).regs = s.regs := rfl
@[simp] theorem State.emit_z (e : IoEvent) : (s.emit e).z = s.z := rfl
@[simp] theorem State.emit_c (e : IoEvent) : (s.emit e).c = s.c := rfl
@[simp] theorem State.emit_mem (e : IoEvent) : (s.emit e).mem = s.mem := rfl
@[simp] theorem State.emit_marked (e : IoEvent) : (s.emit e).marked = s.marked := rfl
@[simp] theorem State.emit_trace (e : IoEvent) : (s.emit e).trace = s.trace ++ [e] := rfl
@[simp] theorem State.emit_ir (e : IoEvent) : (s.emit e).ir = s.ir := rfl
@[simp] theorem State.emit_status (e : IoEvent) : (s.emit e).status = s.status := rfl
@[simp] theorem State.emit_pauses (e : IoEvent) : (s.emit e).pauses = s.pauses := rfl
@[simp] theorem State.emit_answers (e : IoEvent) : (s.emit e).answers = s.answers := rfl
@[simp] theorem State.emit_draws (e : IoEvent) : (s.emit e).draws = s.draws := rfl
@[simp] theorem State.emit_cycles (e : IoEvent) : (s.emit e).cycles = s.cycles := rfl
@[simp] theorem State.emit_params (e : IoEvent) : (s.emit e).params = s.params := rfl

/-! ### takeAnswer -/

@[simp] theorem State.takeAnswer_regs : (s.takeAnswer).regs = s.regs := rfl
@[simp] theorem State.takeAnswer_z : (s.takeAnswer).z = s.z := rfl
@[simp] theorem State.takeAnswer_c : (s.takeAnswer).c = s.c := rfl
@[simp] theorem State.takeAnswer_mem : (s.takeAnswer).mem = s.mem := rfl
@[simp] theorem State.takeAnswer_marked : (s.takeAnswer).marked = s.marked := rfl
@[simp] theorem State.takeAnswer_trace : (s.takeAnswer).trace = s.trace := rfl
@[simp] theorem State.takeAnswer_ir : (s.takeAnswer).ir = s.ir := rfl
@[simp] theorem State.takeAnswer_status : (s.takeAnswer).status = s.status := rfl
@[simp] theorem State.takeAnswer_pauses : (s.takeAnswer).pauses = s.pauses := rfl
@[simp] theorem State.takeAnswer_answers : (s.takeAnswer).answers = s.answers.tail := rfl
@[simp] theorem State.takeAnswer_draws : (s.takeAnswer).draws = s.draws + 1 := rfl
@[simp] theorem State.takeAnswer_cycles : (s.takeAnswer).cycles = s.cycles := rfl
@[simp] theorem State.takeAnswer_params : (s.takeAnswer).params = s.params := rfl

/-! ### setIr -/

@[simp] theorem State.setIr_regs (w : Word) : (s.setIr w).regs = s.regs := rfl
@[simp] theorem State.setIr_z (w : Word) : (s.setIr w).z = s.z := rfl
@[simp] theorem State.setIr_c (w : Word) : (s.setIr w).c = s.c := rfl
@[simp] theorem State.setIr_mem (w : Word) : (s.setIr w).mem = s.mem := rfl
@[simp] theorem State.setIr_marked (w : Word) : (s.setIr w).marked = s.marked := rfl
@[simp] theorem State.setIr_trace (w : Word) : (s.setIr w).trace = s.trace := rfl
@[simp] theorem State.setIr_ir (w : Word) : (s.setIr w).ir = w := rfl
@[simp] theorem State.setIr_status (w : Word) : (s.setIr w).status = s.status := rfl
@[simp] theorem State.setIr_pauses (w : Word) : (s.setIr w).pauses = s.pauses := rfl
@[simp] theorem State.setIr_answers (w : Word) : (s.setIr w).answers = s.answers := rfl
@[simp] theorem State.setIr_draws (w : Word) : (s.setIr w).draws = s.draws := rfl
@[simp] theorem State.setIr_cycles (w : Word) : (s.setIr w).cycles = s.cycles := rfl
@[simp] theorem State.setIr_params (w : Word) : (s.setIr w).params = s.params := rfl

/-! ### countCycle -/

@[simp] theorem State.countCycle_regs : (s.countCycle).regs = s.regs := rfl
@[simp] theorem State.countCycle_z : (s.countCycle).z = s.z := rfl
@[simp] theorem State.countCycle_c : (s.countCycle).c = s.c := rfl
@[simp] theorem State.countCycle_mem : (s.countCycle).mem = s.mem := rfl
@[simp] theorem State.countCycle_marked : (s.countCycle).marked = s.marked := rfl
@[simp] theorem State.countCycle_trace : (s.countCycle).trace = s.trace := rfl
@[simp] theorem State.countCycle_ir : (s.countCycle).ir = s.ir := rfl
@[simp] theorem State.countCycle_status : (s.countCycle).status = s.status := rfl
@[simp] theorem State.countCycle_pauses : (s.countCycle).pauses = s.pauses := rfl
@[simp] theorem State.countCycle_answers : (s.countCycle).answers = s.answers := rfl
@[simp] theorem State.countCycle_draws : (s.countCycle).draws = s.draws := rfl
@[simp] theorem State.countCycle_cycles : (s.countCycle).cycles = s.cycles + 1 := rfl
@[simp] theorem State.countCycle_params : (s.countCycle).params = s.params := rfl

/-! ### pause -/

@[simp] theorem State.pause_regs : (s.pause).regs = s.regs := rfl
@[simp] theorem State.pause_z : (s.pause).z = s.z := rfl
@[simp] theorem State.pause_c : (s.pause).c = s.c := rfl
@[simp] theorem State.pause_mem : (s.pause).mem = s.mem := rfl
@[simp] theorem State.pause_marked : (s.pause).marked = s.marked := rfl
@[simp] theorem State.pause_trace : (s.pause).trace = s.trace := rfl
@[simp] theorem State.pause_ir : (s.pause).ir = s.ir := rfl
@[simp] theorem State.pause_status : (s.pause).status = s.status := rfl
@[simp] theorem State.pause_pauses : (s.pause).pauses = s.pauses ++ [s.pc] := rfl
@[simp] theorem State.pause_answers : (s.pause).answers = s.answers := rfl
@[simp] theorem State.pause_draws : (s.pause).draws = s.draws := rfl
@[simp] theorem State.pause_cycles : (s.pause).cycles = s.cycles := rfl
@[simp] theorem State.pause_params : (s.pause).params = s.params := rfl

/-! ### halt -/

@[simp] theorem State.halt_regs : (s.halt).regs = s.regs := rfl
@[simp] theorem State.halt_z : (s.halt).z = s.z := rfl
@[simp] theorem State.halt_c : (s.halt).c = s.c := rfl
@[simp] theorem State.halt_mem : (s.halt).mem = s.mem := rfl
@[simp] theorem State.halt_marked : (s.halt).marked = s.marked := rfl
@[simp] theorem State.halt_trace : (s.halt).trace = s.trace := rfl
@[simp] theorem State.halt_ir : (s.halt).ir = s.ir := rfl
@[simp] theorem State.halt_status : (s.halt).status = .halted := rfl
@[simp] theorem State.halt_pauses : (s.halt).pauses = s.pauses := rfl
@[simp] theorem State.halt_answers : (s.halt).answers = s.answers := rfl
@[simp] theorem State.halt_draws : (s.halt).draws = s.draws := rfl
@[simp] theorem State.halt_cycles : (s.halt).cycles = s.cycles := rfl
@[simp] theorem State.halt_params : (s.halt).params = s.params := rfl

/-! ### Reading a register after an update -/

@[simp] theorem State.readReg_writeReg (r q : Reg) (v : Word) :
    (s.writeReg r v).readReg q = if q = r then v else s.readReg q := by
  simp only [State.readReg, State.writeReg, Fin.getElem_fin, Vector.getElem_set, Fin.ext_iff, eq_comm]

@[simp] theorem State.readReg_setZ (q : Reg) (b : Bool) : (s.setZ b).readReg q = s.readReg q := rfl
@[simp] theorem State.readReg_setC (q : Reg) (b : Bool) : (s.setC b).readReg q = s.readReg q := rfl
@[simp] theorem State.readReg_writeCell (q : Reg) (a : Nat) (v : Word) : (s.writeCell a v).readReg q = s.readReg q := rfl
@[simp] theorem State.readReg_mark (q : Reg) (a : Nat) : (s.mark a).readReg q = s.readReg q := rfl
@[simp] theorem State.readReg_emit (q : Reg) (e : IoEvent) : (s.emit e).readReg q = s.readReg q := rfl
@[simp] theorem State.readReg_takeAnswer (q : Reg) : (s.takeAnswer).readReg q = s.readReg q := rfl
@[simp] theorem State.readReg_setIr (q : Reg) (w : Word) : (s.setIr w).readReg q = s.readReg q := rfl
@[simp] theorem State.readReg_countCycle (q : Reg) : (s.countCycle).readReg q = s.readReg q := rfl
@[simp] theorem State.readReg_pause (q : Reg) : (s.pause).readReg q = s.readReg q := rfl
@[simp] theorem State.readReg_halt (q : Reg) : (s.halt).readReg q = s.readReg q := rfl

/-! ### Reading a cell after an update -/

@[simp] theorem State.readCell_writeReg (q : Nat) (r : Reg) (v : Word) : (s.writeReg r v).readCell q = s.readCell q := rfl
@[simp] theorem State.readCell_setZ (q : Nat) (b : Bool) : (s.setZ b).readCell q = s.readCell q := rfl
@[simp] theorem State.readCell_setC (q : Nat) (b : Bool) : (s.setC b).readCell q = s.readCell q := rfl
@[simp] theorem State.readCell_mark (q : Nat) (a : Nat) : (s.mark a).readCell q = s.readCell q := rfl
@[simp] theorem State.readCell_emit (q : Nat) (e : IoEvent) : (s.emit e).readCell q = s.readCell q := rfl
@[simp] theorem State.readCell_takeAnswer (q : Nat) : (s.takeAnswer).readCell q = s.readCell q := rfl
@[simp] theorem State.readCell_setIr (q : Nat) (w : Word) : (s.setIr w).readCell q = s.readCell q := rfl
@[simp] theorem State.readCell_countCycle (q : Nat) : (s.countCycle).readCell q = s.readCell q := rfl
@[simp] theorem State.readCell_pause (q : Nat) : (s.pause).readCell q = s.readCell q := rfl
@[simp] theorem State.readCell_halt (q : Nat) : (s.halt).readCell q = s.readCell q := rfl

/-! ### Names brought down to the plain operations -/

@[simp] theorem State.pc_eq : s.pc = s.readReg s.params.pcIndex := rfl

@[simp] theorem State.sp_eq : s.sp = s.readReg s.params.spIndex := rfl

@[simp] theorem State.setPc_eq (v : Word) : s.setPc v = s.writeReg s.params.pcIndex v := rfl

@[simp] theorem State.setSp_eq (v : Word) : s.setSp v = s.writeReg s.params.spIndex v := rfl

@[simp] theorem State.storeZ_eq (rd : Reg) (v : Word) : s.storeZ rd v = (s.writeReg rd v).setZ (zeroFlag v) := rfl

@[simp] theorem State.storeZC_eq (rd : Reg) (v : Word) (b : Bool) :
    s.storeZC rd v b = ((s.writeReg rd v).setZ (zeroFlag v)).setC b := rfl

@[simp] theorem State.flagsZC_eq (v : Word) (b : Bool) : s.flagsZC v b = (s.setZ (zeroFlag v)).setC b := rfl

@[simp] theorem State.jumpBy_eq (offset : Int) :
    s.jumpBy offset = s.writeReg s.params.pcIndex (jumpTarget (s.readReg s.params.pcIndex) offset) := rfl

@[simp] theorem State.input_eq (event : Word → IoEvent) (rd : Reg) :
    s.input event rd = (s.takeAnswer.emit (event s.nextAnswer)).writeReg rd s.nextAnswer := rfl

@[simp] theorem State.inMemory_iff (a : Nat) : s.inMemory a = true ↔ a < s.params.memWords := by
  simp [State.inMemory]

/-! ### Extensionality -/

/-- Two states with the same fields, registers read one by one, are one state. -/
theorem State.ext_fields {s t : State} (hr : ∀ r, s.readReg r = t.readReg r) (hz : s.z = t.z) (hc : s.c = t.c)
    (hm : s.mem = t.mem) (hk : s.marked = t.marked) (ht : s.trace = t.trace) (hi : s.ir = t.ir)
    (hs : s.status = t.status) (hp : s.pauses = t.pauses) (ha : s.answers = t.answers) (hd : s.draws = t.draws)
    (hn : s.cycles = t.cycles) (hq : s.params = t.params) : s = t := by
  have hregs : s.regs = t.regs := Vector.ext fun i hlt => hr ⟨i, hlt⟩
  cases s; cases t; simp_all

end Sys2Proof.Machine
end

