-- ==== Sys2Proof/Laws/Exec.lean ====
section
/-! SUPPORT. What each meaning that can stop, each shared operation of the cycle and the step can do, said once: a lemma
for the next state and one for the fault. -/

namespace Sys2Proof.Machine

variable {s t : State} {f : Fault} {rd rs rm : Reg} {imm4 : BitVec 4}

/-! ### Faults -/

@[simp] theorem raiseAt_ne_next {α : Type} (a : Word) (cause : Cause) (s : State) (x : α) :
    raiseAt a cause s ≠ .next x := by
  cases cause <;> simp [raiseAt]

@[simp] theorem raiseAt_ne_refused {α : Type} (a : Word) (cause : Cause) (s : State) (r : Refusal) :
    (raiseAt a cause s : Host.Outcome α Fault Refusal) ≠ .refused r := by
  cases cause <;> simp [raiseAt]

/-- A raised fault carries the instruction address and the state it was raised in. -/
theorem raiseAt_fault {α : Type} {a : Word} {cause : Cause}
    (h : (raiseAt a cause s : Host.Outcome α Fault Refusal) = .fault f) : f.instrAddr = a ∧ f.final = s := by
  cases cause <;> simp only [raiseAt, Host.Outcome.fault.injEq] at h <;> subst h <;> exact ⟨rfl, rfl⟩

/-! ### The effective address -/

/-- The address the meanings compute is the one the claims speak of. -/
theorem addressIs_iff (s : State) (rm : Reg) (imm4 : BitVec 4) (ea : Int) :
    AddressIs s rm imm4 ea ↔ s.accessAddress rm imm4 = ea := by
  unfold AddressIs State.accessAddress effectiveAddress
  rw [simm_eq_toInt]
  cases h : s.params.eaOverflow <;> simp [eq_comm]

theorem placeOf_eq_cell {p : Params} {a : Nat} (h : IsCell p a) : placeOf p a = .cell a := by
  obtain ⟨h1, h2, h3⟩ := h
  simp only [Params.ports, List.forall_mem_cons, List.not_mem_nil, false_imp_iff, implies_true, and_true] at h3
  have h0 : ¬ ((a : Int) < 0 ∨ 0xFFFF < (a : Int)) := by omega
  unfold placeOf
  rw [if_neg h0]
  simp only [Nat.cast_inj, h3.1, h3.2.1, h3.2.2.1, h3.2.2.2, if_false, Int.toNat_natCast, h1, if_true]

theorem placeOf_eq_outside {p : Params} {ea : Int} (h : IsOutside p ea) : placeOf p ea = .outside := by
  unfold placeOf
  rcases h with h | h | ⟨h, hp⟩
  · simp [h]
  · rw [if_pos (.inr h)]
  · simp only [Params.ports, List.forall_mem_cons, List.not_mem_nil, false_imp_iff, implies_true, and_true] at hp
    split_ifs <;> first | rfl | omega

/-- Under the bounds of the launch parameters no two ports share an address. -/
theorem ports_distinct {p : Params} (h : p.wf = true) :
    p.ioCharIn ≠ p.ioCharOut ∧ p.ioCharIn ≠ p.ioIntIn ∧ p.ioCharIn ≠ p.ioIntOut ∧ p.ioCharOut ≠ p.ioIntIn ∧
      p.ioCharOut ≠ p.ioIntOut ∧ p.ioIntIn ≠ p.ioIntOut := by
  simp only [Params.wf, Params.ports, Bool.and_eq_true, decide_eq_true_eq, List.nodup_cons, List.mem_cons,
    List.not_mem_nil, or_false, not_or] at h
  tauto

/-- Each port's address is classified as that port. -/
theorem placeOf_port {p : Params} (h : p.wf = true) :
    placeOf p p.ioCharIn.toNat = .charIn ∧ placeOf p p.ioIntIn.toNat = .intIn ∧
      placeOf p p.ioCharOut.toNat = .charOut ∧ placeOf p p.ioIntOut.toNat = .intOut := by
  obtain ⟨h1, h2, h3, h4, h5, h6⟩ := ports_distinct h
  simp only [Ne, BitVec.toNat_eq] at h1 h2 h3 h4 h5 h6
  have e : ∀ w : Word, ¬ ((w.toNat : Int) < 0 ∨ 0xFFFF < (w.toNat : Int)) := by intro w; have := w.isLt; omega
  unfold placeOf
  refine ⟨?_, ?_, ?_, ?_⟩ <;> rw [if_neg (e _)] <;> simp only [Nat.cast_inj] <;> split_ifs <;> first | rfl | omega

/-! ### LDR and STR -/

theorem execLdr_cell {a : Nat} (h : placeOf s.params (s.accessAddress rm imm4) = .cell a) :
    execLdr rd rm imm4 s = .next ((s.mark a).writeReg rd (s.readCell a)) := by
  simp only [execLdr, h]

theorem execStr_cell {a : Nat} (h : placeOf s.params (s.accessAddress rm imm4) = .cell a) :
    execStr rs rm imm4 s = .next ((s.mark a).writeCell a (s.readReg rs)) := by
  simp only [execStr, h]

/-- If LDR answers a next state, it read a cell or an input port. -/
theorem execLdr_next (h : execLdr rd rm imm4 s = .next t) :
    (∃ a, placeOf s.params (s.accessAddress rm imm4) = .cell a ∧ t = (s.mark a).writeReg rd (s.readCell a)) ∨
    (placeOf s.params (s.accessAddress rm imm4) = .charIn ∧ t = s.input .charIn rd) ∨
    (placeOf s.params (s.accessAddress rm imm4) = .intIn ∧ t = s.input .intIn rd) := by
  unfold execLdr at h
  split at h <;> first | exact (raiseAt_ne_next _ _ _ _ h).elim | skip
  · next a ha => cases h; exact .inl ⟨a, ha, rfl⟩
  · next ha => cases h; exact .inr (.inl ⟨ha, rfl⟩)
  · next ha => cases h; exact .inr (.inr ⟨ha, rfl⟩)

/-- If LDR faults, it is the fault its place calls for. -/
theorem execLdr_fault (h : execLdr rd rm imm4 s = .fault f) :
    (placeOf s.params (s.accessAddress rm imm4) = .charOut ∧ f = .ioDirection .load s.instrAddr s.params.ioCharOut s) ∨
    (placeOf s.params (s.accessAddress rm imm4) = .intOut ∧ f = .ioDirection .load s.instrAddr s.params.ioIntOut s) ∨
    (placeOf s.params (s.accessAddress rm imm4) = .outside ∧
      f = .memoryViolation .load s.instrAddr (s.accessAddress rm imm4) s) := by
  unfold execLdr at h
  split at h <;> first | (cases h; done) | skip
  · next ha => cases h; exact .inl ⟨ha, rfl⟩
  · next ha => cases h; exact .inr (.inl ⟨ha, rfl⟩)
  · next ha => cases h; exact .inr (.inr ⟨ha, rfl⟩)

/-- If STR answers a next state, it wrote a cell or an output port. -/
theorem execStr_next (h : execStr rs rm imm4 s = .next t) :
    (∃ a, placeOf s.params (s.accessAddress rm imm4) = .cell a ∧ t = (s.mark a).writeCell a (s.readReg rs)) ∨
    (placeOf s.params (s.accessAddress rm imm4) = .charOut ∧ t = s.emit (.charOut (s.readReg rs))) ∨
    (placeOf s.params (s.accessAddress rm imm4) = .intOut ∧ t = s.emit (.intOut (s.readReg rs))) := by
  unfold execStr at h
  split at h <;> first | exact (raiseAt_ne_next _ _ _ _ h).elim | skip
  · next a ha => cases h; exact .inl ⟨a, ha, rfl⟩
  · next ha => cases h; exact .inr (.inl ⟨ha, rfl⟩)
  · next ha => cases h; exact .inr (.inr ⟨ha, rfl⟩)

/-- If STR faults, it is the fault its place calls for. -/
theorem execStr_fault (h : execStr rs rm imm4 s = .fault f) :
    (placeOf s.params (s.accessAddress rm imm4) = .charIn ∧ f = .ioDirection .store s.instrAddr s.params.ioCharIn s) ∨
    (placeOf s.params (s.accessAddress rm imm4) = .intIn ∧ f = .ioDirection .store s.instrAddr s.params.ioIntIn s) ∨
    (placeOf s.params (s.accessAddress rm imm4) = .outside ∧
      f = .memoryViolation .store s.instrAddr (s.accessAddress rm imm4) s) := by
  unfold execStr at h
  split at h <;> first | (cases h; done) | skip
  · next ha => cases h; exact .inl ⟨ha, rfl⟩
  · next ha => cases h; exact .inr (.inl ⟨ha, rfl⟩)
  · next ha => cases h; exact .inr (.inr ⟨ha, rfl⟩)

/-! ### PUSH and POP -/

/-- If PUSH answers a next state, the new stack pointer is in memory. -/
theorem execPush_next (h : execPush rs s = .next t) :
    s.pushAddress.toNat < s.params.memWords ∧
      t = (s.setSp s.pushAddress).writeCell s.pushAddress.toNat ((s.setSp s.pushAddress).readReg rs) := by
  unfold execPush at h
  split at h
  · next hm => cases h; exact ⟨(s.inMemory_iff _).1 hm, rfl⟩
  · exact (raiseAt_ne_next _ _ _ _ h).elim

theorem execPush_fault (h : execPush rs s = .fault f) :
    s.params.memWords ≤ s.pushAddress.toNat ∧ f = .memoryViolation .push s.instrAddr s.pushAddress.toNat s := by
  unfold execPush at h
  split at h
  · cases h
  · next hm => cases h; exact ⟨not_lt.1 fun h => hm ((s.inMemory_iff _).2 h), rfl⟩

/-- If POP answers a next state, the stack pointer is in memory. -/
theorem execPop_next (h : execPop rd s = .next t) :
    s.sp.toNat < s.params.memWords ∧
      t = (s.writeReg rd (s.readCell s.sp.toNat)).setSp ((s.writeReg rd (s.readCell s.sp.toNat)).sp + 1) := by
  unfold execPop at h
  split at h
  · next hm => cases h; exact ⟨(s.inMemory_iff _).1 hm, rfl⟩
  · exact (raiseAt_ne_next _ _ _ _ h).elim

theorem execPop_fault (h : execPop rd s = .fault f) :
    s.params.memWords ≤ s.sp.toNat ∧ f = .memoryViolation .pop s.instrAddr s.sp.toNat s := by
  unfold execPop at h
  split at h
  · cases h
  · next hm => cases h; exact ⟨not_lt.1 fun h => hm ((s.inMemory_iff _).2 h), rfl⟩

/-! ### SHR and SHL -/

theorem shiftRefused_iff (p : Params) (imm4 : BitVec 4) :
    shiftRefused p imm4 = true ↔ p.shiftAmount = .refuseHigh ∧ 8 ≤ imm4.toNat := by
  have h : ∀ v : BitVec 4, v.getLsbD 3 = true ↔ 8 ≤ v.toNat := by decide
  unfold shiftRefused
  split
  · next hz => simp [hz]
  · next hr => rw [h, hr]; simp

theorem execShr_next (h : execShr rd rm imm4 s = .next t) : t = s.storeZ rd (s.readReg rm >>> shiftCount imm4) := by
  unfold execShr at h; split at h <;> cases h; rfl

theorem execShl_next (h : execShl rd rm imm4 s = .next t) : t = s.storeZ rd (s.readReg rm <<< shiftCount imm4) := by
  unfold execShl at h; split at h <;> cases h; rfl

theorem execShr_ne_fault : execShr rd rm imm4 s ≠ .fault f := by
  unfold execShr; split <;> simp

theorem execShl_ne_fault : execShl rd rm imm4 s ≠ .fault f := by
  unfold execShl; split <;> simp

/-! ### The cycle -/

/-- What the beginning of a cycle changes. -/
theorem State.beginCycle_eq (s : State) :
    s.beginCycle = { s with
      cycles := s.cycles + 1
      pauses := if s.params.breakpoints.contains s.pc then s.pauses ++ [s.pc] else s.pauses } := by
  unfold State.beginCycle State.pauseAtBreakpoint
  by_cases h : s.params.breakpoints.contains s.pc = true
  · rw [if_pos h]; exact if_pos h
  · rw [if_neg h]; exact if_neg h

@[simp] theorem State.readReg_beginCycle (s : State) (r : Reg) : s.beginCycle.readReg r = s.readReg r := by
  rw [State.beginCycle_eq]; rfl

@[simp] theorem State.readCell_beginCycle (s : State) (a : Nat) : s.beginCycle.readCell a = s.readCell a := by
  rw [State.beginCycle_eq]; rfl

@[simp] theorem State.beginCycle_params (s : State) : s.beginCycle.params = s.params := by
  rw [State.beginCycle_eq]

/-- The state an instruction executes in: the word at the program counter in the instruction register, the program counter
incremented, the cycle counted, a pause recorded if there was one, everything else as before. -/
theorem State.fetch_eq (s : State) :
    s.beginCycle.fetch = { s with
      ir := s.readCell s.pc.toNat
      regs := s.regs.set s.params.pcIndex (s.pc + 1)
      cycles := s.cycles + 1
      pauses := if s.params.breakpoints.contains s.pc then s.pauses ++ [s.pc] else s.pauses } := by
  unfold State.fetch
  rw [State.beginCycle_eq]
  rfl

/-- If the first half of a cycle goes through, the fetch was in memory, the word decodes and is not refused. -/
theorem fetchDecode_next {i : Instr} (h : fetchDecode s = .next (i, t)) :
    s.pc.toNat < s.params.memWords ∧ t = s.beginCycle.fetch ∧
      decode s.params.opcodeMap (s.readCell s.pc.toNat) = .ok i ∧ pcRefused s.params i = false := by
  unfold fetchDecode at h
  simp only [State.fetch_eq] at h
  split at h
  · next hm =>
    split at h
    · exact (raiseAt_ne_next _ _ _ _ h).elim
    · next j hj =>
      split at h
      · cases h
      · next hr =>
        cases h
        refine ⟨?_, (State.fetch_eq s).symm, hj, by simpa using hr⟩
        simpa [State.inMemory] using hm
  · exact (raiseAt_ne_next _ _ _ _ h).elim

/-- If the first half of a cycle faults, it is a fetch outside memory or an unknown instruction. -/
theorem fetchDecode_fault (h : fetchDecode s = .fault f) :
    (s.params.memWords ≤ s.pc.toNat ∧ f = .memoryViolation .fetch s.pc s.pc.toNat s.beginCycle) ∨
    (s.pc.toNat < s.params.memWords ∧ f = .unknownInstruction s.pc (s.readCell s.pc.toNat) s.beginCycle.fetch) := by
  unfold fetchDecode at h
  simp only [State.fetch_eq] at h ⊢
  split at h
  · next hm =>
    have hm : s.pc.toNat < s.params.memWords := by simpa [State.inMemory] using hm
    split at h
    · next w hw =>
      right
      refine ⟨hm, ?_⟩
      have hw' : w = s.readCell s.pc.toNat := by
        unfold decode at hw
        split at hw
        · cases hw
        · split at hw <;> cases hw; rfl
      subst hw'
      simp only [raiseAt, Host.Outcome.fault.injEq, State.pc_eq, State.readReg_beginCycle, State.beginCycle_params] at h
      exact h.symm
    · split at h <;> cases h
  · next hm =>
    left
    have hm : s.params.memWords ≤ s.pc.toNat := by simpa [State.inMemory] using hm
    simp only [raiseAt, Host.Outcome.fault.injEq, State.pc_eq, State.readReg_beginCycle, State.beginCycle_params] at h
    exact ⟨hm, h.symm⟩

/-- A fetch in memory of a word that decodes to an instruction that is not refused. -/
theorem fetchDecode_of_decode {i : Instr} (hb : s.pc.toNat < s.params.memWords)
    (hd : decode s.params.opcodeMap (s.readCell s.pc.toNat) = .ok i) (hr : pcRefused s.params i = false) :
    fetchDecode s = .next (i, s.beginCycle.fetch) := by
  have hm : s.beginCycle.inMemory s.beginCycle.pc.toNat = true := by simpa [State.inMemory] using hb
  have e1 : s.beginCycle.fetch.params = s.params := by rw [State.fetch_eq]
  have e2 : s.beginCycle.fetch.ir = s.readCell s.pc.toNat := by rw [State.fetch_eq]
  unfold fetchDecode
  simp only [hm, if_true, e1, e2, hd, hr, Bool.false_eq_true, if_false]

/-- A fetch in memory of a word that decodes to a refused instruction. -/
theorem fetchDecode_of_refused {i : Instr} (hb : s.pc.toNat < s.params.memWords)
    (hd : decode s.params.opcodeMap (s.readCell s.pc.toNat) = .ok i) (hr : pcRefused s.params i = true) :
    fetchDecode s = .refused .pcOperand := by
  have hm : s.beginCycle.inMemory s.beginCycle.pc.toNat = true := by simpa [State.inMemory] using hb
  have e1 : s.beginCycle.fetch.params = s.params := by rw [State.fetch_eq]
  have e2 : s.beginCycle.fetch.ir = s.readCell s.pc.toNat := by rw [State.fetch_eq]
  unfold fetchDecode
  simp only [hm, if_true, e1, e2, hd, hr]

/-- A fetch in memory of a word with an undefined opcode. -/
theorem fetchDecode_of_error {w : Word} (hb : s.pc.toNat < s.params.memWords)
    (hd : decode s.params.opcodeMap (s.readCell s.pc.toNat) = .error (.unknownInstruction w)) :
    fetchDecode s = .fault (.unknownInstruction s.pc w s.beginCycle.fetch) := by
  have hm : s.beginCycle.inMemory s.beginCycle.pc.toNat = true := by simpa [State.inMemory] using hb
  have e1 : s.beginCycle.fetch.params = s.params := by rw [State.fetch_eq]
  have e2 : s.beginCycle.fetch.ir = s.readCell s.pc.toNat := by rw [State.fetch_eq]
  unfold fetchDecode
  simp only [hm, if_true, e1, e2, hd]
  simp [raiseAt]

/-- If a step answers a next state, the run was over and nothing changes, or the decoded instruction answers it. -/
theorem step_next (h : step s = .next t) :
    (s.status = .halted ∧ t = s) ∨
    (s.status = .running ∧ s.pc.toNat < s.params.memWords ∧ ∃ i,
      decode s.params.opcodeMap (s.readCell s.pc.toNat) = .ok i ∧ pcRefused s.params i = false ∧
      exec i s.beginCycle.fetch = .next t) := by
  unfold step at h
  split at h
  · next hs => cases h; exact .inl ⟨hs, rfl⟩
  · next hs =>
    split at h
    · next i u hf =>
      obtain ⟨h1, rfl, h2, h3⟩ := fetchDecode_next hf
      exact .inr ⟨hs, h1, i, h2, h3, h⟩
    · cases h
    · cases h

/-- If a step faults, the first half of the cycle faults or the decoded instruction does. -/
theorem step_fault (h : step s = .fault f) :
    s.status = .running ∧
    ((s.params.memWords ≤ s.pc.toNat ∧ f = .memoryViolation .fetch s.pc s.pc.toNat s.beginCycle) ∨
     (s.pc.toNat < s.params.memWords ∧ f = .unknownInstruction s.pc (s.readCell s.pc.toNat) s.beginCycle.fetch) ∨
     (s.pc.toNat < s.params.memWords ∧ ∃ i, decode s.params.opcodeMap (s.readCell s.pc.toNat) = .ok i ∧
       exec i s.beginCycle.fetch = .fault f)) := by
  unfold step at h
  split at h
  · cases h
  · next hs =>
    refine ⟨hs, ?_⟩
    split at h
    · next i u hf =>
      obtain ⟨h1, rfl, h2, -⟩ := fetchDecode_next hf
      exact .inr (.inr ⟨h1, i, h2, h⟩)
    · next g hg =>
      cases h
      rcases fetchDecode_fault hg with h | h
      · exact .inl h
      · exact .inr (.inl h)
    · cases h

/-- What every execute leaves alone: the instruction register, the pauses, the count of cycles, the launch parameters. -/
theorem exec_keeps_engine {i : Instr} (h : exec i s = .next t) :
    t.ir = s.ir ∧ t.pauses = s.pauses ∧ t.cycles = s.cycles ∧ t.params = s.params := by
  cases i <;> simp only [exec] at h
  case ldr => rcases execLdr_next h with ⟨a, -, rfl⟩ | ⟨-, rfl⟩ | ⟨-, rfl⟩ <;> exact ⟨rfl, rfl, rfl, rfl⟩
  case str => rcases execStr_next h with ⟨a, -, rfl⟩ | ⟨-, rfl⟩ | ⟨-, rfl⟩ <;> exact ⟨rfl, rfl, rfl, rfl⟩
  case push => obtain ⟨-, rfl⟩ := execPush_next h; exact ⟨rfl, rfl, rfl, rfl⟩
  case pop => obtain ⟨-, rfl⟩ := execPop_next h; exact ⟨rfl, rfl, rfl, rfl⟩
  case shr => obtain rfl := execShr_next h; exact ⟨rfl, rfl, rfl, rfl⟩
  case shl => obtain rfl := execShl_next h; exact ⟨rfl, rfl, rfl, rfl⟩
  case jeq => cases h; unfold State.jumpIf; split <;> exact ⟨rfl, rfl, rfl, rfl⟩
  case jne => cases h; unfold State.jumpIf; split <;> exact ⟨rfl, rfl, rfl, rfl⟩
  case jlt => cases h; unfold State.jumpIf; split <;> exact ⟨rfl, rfl, rfl, rfl⟩
  case jge => cases h; unfold State.jumpIf; split <;> exact ⟨rfl, rfl, rfl, rfl⟩
  all_goals cases h; exact ⟨rfl, rfl, rfl, rfl⟩

/-- One more step of a run. -/
theorem run_succ_of_next (k : Nat) (h : step s = .next t) :
    Host.Core.run Sys2Proof.core (k + 1) s = Host.Core.run Sys2Proof.core k t := by
  have h' : Sys2Proof.core.step s = .next t := h
  simp only [Host.Core.run, h']

end Sys2Proof.Machine
end

