-- ==== Sys2Proof/Laws/PerInstr.lean ====
section
/-! SUPPORT. Statements about every instruction as syntax, one lemma per constructor: the unpacker gives the fields of an
instruction's format back from its operand bits and any opcode (30_encoding.md rules R82 to R95). -/

namespace Sys2Proof.Laws

/-- The instruction is the one that its kind builds from the fields of its own operand bits under any opcode. -/
def FieldsRoundTrip.Statement (i : Instr) : Prop :=
  match i.kind with
  | none => i = .halt
  | some k => ∀ op : BitVec 4, build k (unpack (joinWord (operandBits i) op)) = i

/-- The unpacked fields of a word given by its operand bits, as numbers. -/
theorem unpack_joinWord (b : BitVec 12) (op : BitVec 4) :
    (unpack (joinWord b op)).rd.val = b.toNat / 256 ∧ (unpack (joinWord b op)).rm.val = b.toNat / 16 % 16 ∧
    (unpack (joinWord b op)).rn.val = b.toNat % 16 ∧ (unpack (joinWord b op)).hi4.toNat = b.toNat / 256 ∧
    (unpack (joinWord b op)).imm4.toNat = b.toNat % 16 ∧ (unpack (joinWord b op)).imm8.toNat = b.toNat % 256 ∧
    (unpack (joinWord b op)).imm10.toNat = b.toNat % 1024 ∧ (unpack (joinWord b op)).imm12.toNat = b.toNat ∧
    (unpack (joinWord b op)).cond.toNat = b.toNat / 1024 ∧ (unpack (joinWord b op)).op = op := by
  obtain ⟨h0, h1, h2, h3, h4, h5, h6, h7, h8, h9⟩ := unpack_toNat (joinWord b op)
  have hb := b.isLt
  have ho := op.isLt
  rw [toNat_joinWord] at *
  refine ⟨?_, ?_, ?_, ?_, ?_, ?_, ?_, ?_, ?_, BitVec.eq_of_toNat_eq ?_⟩ <;> omega

/-- The conditional jump of the unpacked condition and offset. -/
theorem unpack_condBits (c : BitVec 2) (v : BitVec 10) (op : BitVec 4) :
    (unpack (joinWord (condBits c v) op)).cond = c ∧ (unpack (joinWord (condBits c v) op)).imm10 = v := by
  obtain ⟨-, -, -, -, -, -, h7, -, h9, -⟩ := unpack_joinWord (condBits c v) op
  have := v.isLt
  rw [toNat_condBits] at *
  constructor <;> apply BitVec.eq_of_toNat_eq <;> omega

/-- The fields of formats RR, CR, RI and M. -/
theorem unpack_nibbles (a b c op : BitVec 4) :
    (unpack (joinWord (nibbles a b c) op)).rd = a.toFin ∧ (unpack (joinWord (nibbles a b c) op)).rm = b.toFin ∧
    (unpack (joinWord (nibbles a b c) op)).rn = c.toFin ∧ (unpack (joinWord (nibbles a b c) op)).hi4 = a ∧
    (unpack (joinWord (nibbles a b c) op)).imm4 = c := by
  obtain ⟨h1, h2, h3, h4, h5, -⟩ := unpack_joinWord (nibbles a b c) op
  have := a.isLt
  have := b.isLt
  have := c.isLt
  rw [toNat_nibbles] at *
  refine ⟨Fin.ext (h1.trans ?_), Fin.ext (h2.trans ?_), Fin.ext (h3.trans ?_), BitVec.eq_of_toNat_eq (h4.trans ?_),
    BitVec.eq_of_toNat_eq (h5.trans ?_)⟩ <;> try simp only [BitVec.val_toFin]
  all_goals omega

/-- The fields of formats MI and S. -/
theorem unpack_regByte (a : BitVec 4) (v : BitVec 8) (op : BitVec 4) :
    (unpack (joinWord (regByte a v) op)).rd = a.toFin ∧ (unpack (joinWord (regByte a v) op)).imm8 = v := by
  obtain ⟨h1, -, -, -, -, h6, -⟩ := unpack_joinWord (regByte a v) op
  have := a.isLt
  have := v.isLt
  rw [toNat_regByte] at *
  refine ⟨Fin.ext (h1.trans ?_), BitVec.eq_of_toNat_eq (h6.trans ?_)⟩ <;> try simp only [BitVec.val_toFin]
  all_goals omega

@[simp] theorem regBits_toFin (r : Reg) : (regBits r).toFin = r := rfl

theorem FieldsRoundTrip.jmp (imm12 : BitVec 12) : FieldsRoundTrip.Statement (.jmp imm12) := by
  intro op
  exact congrArg Instr.jmp (BitVec.eq_of_toNat_eq (unpack_joinWord imm12 op).2.2.2.2.2.2.2.1)

theorem FieldsRoundTrip.jeq (imm10 : BitVec 10) : FieldsRoundTrip.Statement (.jeq imm10) := by
  intro op; simp [build, operandBits, unpack_condBits, condJump]

theorem FieldsRoundTrip.jne (imm10 : BitVec 10) : FieldsRoundTrip.Statement (.jne imm10) := by
  intro op; simp [build, operandBits, unpack_condBits, condJump]

theorem FieldsRoundTrip.jlt (imm10 : BitVec 10) : FieldsRoundTrip.Statement (.jlt imm10) := by
  intro op; simp [build, operandBits, unpack_condBits, condJump]

theorem FieldsRoundTrip.jge (imm10 : BitVec 10) : FieldsRoundTrip.Statement (.jge imm10) := by
  intro op; simp [build, operandBits, unpack_condBits, condJump]

theorem FieldsRoundTrip.ldr (rd rm : Reg) (imm4 : BitVec 4) : FieldsRoundTrip.Statement (.ldr rd rm imm4) := by
  intro op; simp [build, operandBits, unpack_nibbles]

theorem FieldsRoundTrip.str (rs rm : Reg) (imm4 : BitVec 4) : FieldsRoundTrip.Statement (.str rs rm imm4) := by
  intro op; simp [build, operandBits, unpack_nibbles]

theorem FieldsRoundTrip.mov (rd : Reg) (imm8 : BitVec 8) : FieldsRoundTrip.Statement (.mov rd imm8) := by
  intro op; simp [build, operandBits, unpack_regByte]

theorem FieldsRoundTrip.add (rd rm rn : Reg) : FieldsRoundTrip.Statement (.add rd rm rn) := by
  intro op; simp [build, operandBits, unpack_nibbles]

theorem FieldsRoundTrip.addi (rd rm : Reg) (imm4 : BitVec 4) : FieldsRoundTrip.Statement (.addi rd rm imm4) := by
  intro op; simp [build, operandBits, unpack_nibbles]

theorem FieldsRoundTrip.sub (rd rm rn : Reg) : FieldsRoundTrip.Statement (.sub rd rm rn) := by
  intro op; simp [build, operandBits, unpack_nibbles]

theorem FieldsRoundTrip.subi (rd rm : Reg) (imm4 : BitVec 4) : FieldsRoundTrip.Statement (.subi rd rm imm4) := by
  intro op; simp [build, operandBits, unpack_nibbles]

theorem FieldsRoundTrip.and (rd rm rn : Reg) : FieldsRoundTrip.Statement (.and rd rm rn) := by
  intro op; simp [build, operandBits, unpack_nibbles]

theorem FieldsRoundTrip.or (rd rm rn : Reg) : FieldsRoundTrip.Statement (.or rd rm rn) := by
  intro op; simp [build, operandBits, unpack_nibbles]

theorem FieldsRoundTrip.shr (rd rm : Reg) (imm4 : BitVec 4) : FieldsRoundTrip.Statement (.shr rd rm imm4) := by
  intro op; simp [build, operandBits, unpack_nibbles]

theorem FieldsRoundTrip.shl (rd rm : Reg) (imm4 : BitVec 4) : FieldsRoundTrip.Statement (.shl rd rm imm4) := by
  intro op; simp [build, operandBits, unpack_nibbles]

theorem FieldsRoundTrip.cmp (ignored : BitVec 4) (rm rn : Reg) : FieldsRoundTrip.Statement (.cmp ignored rm rn) := by
  intro op; simp [build, operandBits, unpack_nibbles]

theorem FieldsRoundTrip.push (rs : Reg) (ignored : BitVec 8) : FieldsRoundTrip.Statement (.push rs ignored) := by
  intro op; simp [build, operandBits, unpack_regByte]

theorem FieldsRoundTrip.pop (rd : Reg) (ignored : BitVec 8) : FieldsRoundTrip.Statement (.pop rd ignored) := by
  intro op; simp [build, operandBits, unpack_regByte]

theorem FieldsRoundTrip.halt : FieldsRoundTrip.Statement .halt := rfl

/-- The lemmas of the family together: the kind of an instruction builds it from its own operand bits. -/
theorem build_operandBits {i : Instr} {k : Kind} (h : i.kind = some k) (op : BitVec 4) :
    build k (unpack (joinWord (operandBits i) op)) = i := by
  have hs : FieldsRoundTrip.Statement i := by
    cases i
    case jmp => exact FieldsRoundTrip.jmp _
    case jeq => exact FieldsRoundTrip.jeq _
    case jne => exact FieldsRoundTrip.jne _
    case jlt => exact FieldsRoundTrip.jlt _
    case jge => exact FieldsRoundTrip.jge _
    case ldr => exact FieldsRoundTrip.ldr _ _ _
    case str => exact FieldsRoundTrip.str _ _ _
    case mov => exact FieldsRoundTrip.mov _ _
    case add => exact FieldsRoundTrip.add _ _ _
    case addi => exact FieldsRoundTrip.addi _ _ _
    case sub => exact FieldsRoundTrip.sub _ _ _
    case subi => exact FieldsRoundTrip.subi _ _ _
    case and => exact FieldsRoundTrip.and _ _ _
    case or => exact FieldsRoundTrip.or _ _ _
    case shr => exact FieldsRoundTrip.shr _ _ _
    case shl => exact FieldsRoundTrip.shl _ _ _
    case cmp => exact FieldsRoundTrip.cmp _ _ _
    case push => exact FieldsRoundTrip.push _ _
    case pop => exact FieldsRoundTrip.pop _ _
    case halt => exact FieldsRoundTrip.halt
  unfold FieldsRoundTrip.Statement at hs
  rw [h] at hs
  exact hs op

end Sys2Proof.Laws
end

