-- ==== Sys2Proof/Tests/Slice0.lean ====
section
/-! SUPPORT. Tests of single steps, with the expected results of the spec's own vectors (95_test_vectors.md; the id stands
in each comment) under N = 0x0100 and the default parameters, and the witnesses that the hypotheses of the statements can
be met. -/

namespace Sys2Proof.Tests

open Sys2Proof.Machine

/-! ### Words: every constructor, from the encodings of 30_encoding.md rule R83 and opcode_table.json -/

theorem test_decode_jmp : decode standardOpcodeMap 0b1111_1111_1100_0000 = .ok (.jmp 0xFFC) := by decide
theorem test_decode_jeq : decode standardOpcodeMap 0b00_0000000010_0001 = .ok (.jeq 2) := by decide
theorem test_decode_jne : decode standardOpcodeMap 0b01_1111111101_0001 = .ok (.jne 0x3FD) := by decide
theorem test_decode_jlt : decode standardOpcodeMap 0b10_0000000010_0001 = .ok (.jlt 2) := by decide
theorem test_decode_jge : decode standardOpcodeMap 0b11_0000000101_0001 = .ok (.jge 5) := by decide
theorem test_decode_ldr : decode standardOpcodeMap 0b0110_0010_1111_0010 = .ok (.ldr 6 2 0xF) := by decide
theorem test_decode_str : decode standardOpcodeMap 0b0111_0110_1110_0011 = .ok (.str 7 6 0xE) := by decide
theorem test_decode_mov : decode standardOpcodeMap 0b0011_11111101_0100 = .ok (.mov 3 0xFD) := by decide
theorem test_decode_add : decode standardOpcodeMap 0b0111_0101_0110_0101 = .ok (.add 7 5 6) := by decide
theorem test_decode_addi : decode standardOpcodeMap 0b1101_1111_0010_0110 = .ok (.addi 13 15 2) := by decide
theorem test_decode_sub : decode standardOpcodeMap 0b0000_0001_0010_0111 = .ok (.sub 0 1 2) := by decide
theorem test_decode_subi : decode standardOpcodeMap 0b0000_0000_1111_1000 = .ok (.subi 0 0 0xF) := by decide
theorem test_decode_and : decode standardOpcodeMap 0b0011_0001_0010_1001 = .ok (.and 3 1 2) := by decide
theorem test_decode_or : decode standardOpcodeMap 0b0011_0001_0010_1010 = .ok (.or 3 1 2) := by decide
theorem test_decode_shr : decode standardOpcodeMap 0b0010_0001_0100_1011 = .ok (.shr 2 1 4) := by decide
theorem test_decode_shl : decode standardOpcodeMap 0b0010_0001_1111_1100 = .ok (.shl 2 1 0xF) := by decide
theorem test_decode_cmp : decode standardOpcodeMap 0b0000_0100_0011_1101 = .ok (.cmp 0 4 3) := by decide
theorem test_decode_push : decode standardOpcodeMap 0b1110_0000_0000_1110 = .ok (.push 14 0) := by decide
/-- H6: POP R15 is 0xF00F. -/
theorem test_decode_pop : decode standardOpcodeMap 0b1111_0000_0000_1111 = .ok (.pop 15 0) := by decide
/-- H6: the all-ones word is HALT, not POP R15. -/
theorem test_decode_halt : decode standardOpcodeMap 0b1111_1111_1111_1111 = .ok .halt := by decide
/-- Ignored bits do not make a word illegal (rule R97). -/
theorem test_decode_ignored_bits : decode standardOpcodeMap 0b1010_0100_0011_1101 = .ok (.cmp 0xA 4 3) := by decide
/-- C1: the table without CMP leaves 0xD undefined (rule R98). -/
theorem test_decode_unknown : decode (standardOpcodeMap.set 13 none) 0x012D = .error (.unknownInstruction 0x012D) := by
  decide
theorem test_encode_pop_r15 : encode standardOpcodeMap (.pop 15 0) = some 0xF00F := by decide
theorem test_decodeTableWord_low_bits : decodeTableWord 16 0x3FD4 = some (.mov 3 0xFD) := by decide

/-! ### WellFormed refuses an ill-formed term for each of its checks -/

theorem test_illformed_no_opcode : Instr.wellFormed (standardOpcodeMap.set 13 none) (.cmp 0 1 2) = false := by decide
theorem test_illformed_halt_word : Instr.wellFormed standardOpcodeMap (.pop 15 0xFF) = false := by decide
/-- Under a map with JMP at 0xF the word of JMP -1 is the word of HALT. -/
theorem test_illformed_halt_word_jmp :
    Instr.wellFormed ((standardOpcodeMap.set 0 none).set 15 (some .jmp)) (.jmp 0xFFF) = false := by decide
theorem test_wellformed_pop_r15 : Instr.wellFormed standardOpcodeMap (.pop 15 0) = true := by decide

/-! ### One step from a small state -/

/-- The reset state with the program counter at 0x0010, and registers, memory and flags as given. -/
def at10 (regs : List (Reg × Word)) (mem : Memory) (z c : Bool) : State :=
  regs.foldl (fun s r => s.writeReg r.1 r.2) { State.reset.setPc 0x0010 with mem := mem, z := z, c := c }

/-- The step that fetches the word `w`. -/
def runWord (w : Nat) (s : State) : Result := step (s.withFetchWord 16 w)

/-- The step answers a next state of which `p` holds. -/
def nextWith (p : State → Bool) : Result → Bool
  | .next s => p s
  | .fault _ => false
  | .refused _ => false

/-- The step faults with this code, instruction address and program counter in the fault's state. -/
def faultWith (code : Nat) (a pc : Word) : Result → Bool
  | .fault f => f.code == code && f.instrAddr == a && f.final.pc == pc
  | .next _ => false
  | .refused _ => false

/-- A1. -/
theorem test_add_wraps : nextWith (fun s => s.readReg 0 == 0 && s.z && s.c && s.pc == 0x11)
    (runWord 0x0125 (at10 [(1, 0xFFFF), (2, 1)] [] false false)) = true := by decide
/-- A4. -/
theorem test_add_clears_carry : nextWith (fun s => s.z && !s.c)
    (runWord 0x0125 (at10 [] [] false true)) = true := by decide
/-- A5. -/
theorem test_sub_borrows : nextWith (fun s => s.readReg 0 == 0xFFFE && !s.z && s.c)
    (runWord 0x0127 (at10 [(1, 3), (2, 5)] [] false false)) = true := by decide
/-- A7. -/
theorem test_sub_no_signed_overflow : nextWith (fun s => s.readReg 0 == 0x7FFF && !s.z && !s.c)
    (runWord 0x0127 (at10 [(1, 0x8000), (2, 1)] [] false false)) = true := by decide
/-- A9. -/
theorem test_and_keeps_carry : nextWith (fun s => s.readReg 3 == 0x000F && !s.z && s.c)
    (runWord 0x3129 (at10 [(1, 0x0F0F), (2, 0x00FF)] [] false true)) = true := by decide
/-- A11. -/
theorem test_or_clears_zero : nextWith (fun s => s.readReg 3 == 0x0FF0 && !s.z && !s.c)
    (runWord 0x312A (at10 [(1, 0x0F00), (2, 0x00F0)] [] true false)) = true := by decide
/-- A14. -/
theorem test_cmp_unsigned : nextWith (fun s => !s.z && s.c && s.readReg 0 == 0 && s.readReg 1 == 0x000A)
    (runWord 0x012D (at10 [(1, 0x000A), (2, 0x0014)] [] false false)) = true := by decide
/-- A17. -/
theorem test_addi_negative_carries : nextWith (fun s => s.readReg 1 == 4 && !s.z && s.c)
    (runWord 0x11F6 (at10 [(1, 5)] [] false false)) = true := by decide
/-- A17 under `IMM_CARRY` = `integer`. -/
theorem test_addi_integer_carry : nextWith (fun s => s.readReg 1 == 4 && !s.c)
    (runWord 0x11F6 { at10 [(1, 5)] [] false false with params := { standardParams with immCarry := .integer } }) = true := by
  decide
/-- A23. -/
theorem test_subi_negative_borrows : nextWith (fun s => s.readReg 0 == 2 && !s.z && s.c)
    (runWord 0x00F8 (at10 [(0, 1)] [] false false)) = true := by decide
/-- A25. -/
theorem test_shr_count_15 : nextWith (fun s => s.readReg 2 == 1 && !s.z)
    (runWord 0x21FB (at10 [(1, 0x8000)] [] false false)) = true := by decide
/-- A25 under `SHIFT_AMOUNT` = `refuse_high`. -/
theorem test_shr_refused : step (({ at10 [(1, 0x8000)] [] false false with
    params := { standardParams with shiftAmount := .refuseHigh } } : State).withFetchWord 16 0x21FB) =
      .refused .shiftCountHigh := by rfl
/-- A28. -/
theorem test_shl_no_carry_out : nextWith (fun s => s.readReg 0 == 0 && s.z && s.c)
    (runWord 0x001C (at10 [(0, 0x8000)] [] false true)) = true := by decide
/-- V2. -/
theorem test_mov_sign_extends : nextWith (fun s => s.readReg 0 == 0xFF80 && s.z && s.c)
    (runWord 0x0804 (at10 [(0, 0x1111)] [] true true)) = true := by decide
/-- L1.2: JMP -4 at 0x0010. -/
theorem test_jmp_backward : nextWith (fun s => s.pc == 0x000D) (runWord 0xFFC0 (at10 [] [] false false)) = true := by decide
/-- J7, J8, at 0x0010. -/
theorem test_jeq : nextWith (fun s => s.pc == 0x0013) (runWord 0x0021 (at10 [] [] true false)) = true ∧
    nextWith (fun s => s.pc == 0x0011) (runWord 0x0021 (at10 [] [] false false)) = true := by decide
/-- J9, J10, at 0x0010. -/
theorem test_jne : nextWith (fun s => s.pc == 0x000E) (runWord 0x7FD1 (at10 [] [] false false)) = true ∧
    nextWith (fun s => s.pc == 0x0011) (runWord 0x7FD1 (at10 [] [] true false)) = true := by decide
/-- J11, J12, at 0x0010. -/
theorem test_jlt : nextWith (fun s => s.pc == 0x0013) (runWord 0x8021 (at10 [] [] false true)) = true ∧
    nextWith (fun s => s.pc == 0x0011) (runWord 0x8021 (at10 [] [] true true)) = true := by decide
/-- J15, J16, at 0x0010. -/
theorem test_jge : nextWith (fun s => s.pc == 0x0016) (runWord 0xC051 (at10 [] [] true true)) = true ∧
    nextWith (fun s => s.pc == 0x0011) (runWord 0xC051 (at10 [] [] false true)) = true := by decide
/-- M2. -/
theorem test_ldr_base_is_destination : nextWith (fun s => s.readReg 2 == 0x1234 && s.marked == [0x41])
    (runWord 0x2212 (at10 [(2, 0x0040)] [(0x41, 0x1234)] false false)) = true := by decide
/-- M7. -/
theorem test_ldr_char_in : nextWith (fun s => s.readReg 1 == 0x41 && s.trace == [.charIn 0x41] && s.marked == [])
    (runWord 0x1602 { at10 [(6, 0xFFFC)] [] false false with answers := [0x41] }) = true := by decide
/-- M5: the fault, and the program counter kept incremented. -/
theorem test_ldr_below_zero : faultWith 1 0x10 0x11 (runWord 0x10F2 (at10 [] [] false false)) = true := by decide
/-- M9. -/
theorem test_ldr_output_port : faultWith 3 0x10 0x11 (runWord 0x1612 (at10 [(6, 0xFFFC)] [] false false)) = true := by
  decide
/-- M16. -/
theorem test_str_base_above_memory : nextWith (fun s => s.readCell 0xFC == 1 && s.marked == [0xFC])
    (runWord 0x7683 (at10 [(7, 1), (6, 0x0104)] [] false false)) = true := by decide
/-- M13. -/
theorem test_str_int_out : nextWith (fun s => s.trace == [.intOut 0xFFFF] && s.readCell 0xFF == 0)
    (runWord 0x5633 (at10 [(5, 0xFFFF), (6, 0xFFFC)] [] false false)) = true := by decide
/-- S2. -/
theorem test_push_sp : nextWith (fun s => s.sp == 0xFF && s.readCell 0xFF == 0xFF && s.marked == [])
    (runWord 0xE00E (at10 [] [] false false)) = true := by decide
/-- S4. -/
theorem test_push_at_zero : faultWith 1 0x10 0x11 (runWord 0x100E (at10 [(14, 0)] [] false false)) = true := by decide
/-- S7. -/
theorem test_pop_sp : nextWith (fun s => s.sp == 0x51)
    (runWord 0xE00F (at10 [(14, 0xFE)] [(0xFE, 0x50)] false false)) = true := by decide
/-- S9. -/
theorem test_pop_pc : nextWith (fun s => s.pc == 0x30 && s.sp == 0x100)
    (runWord 0xF00F (at10 [(14, 0xFF)] [(0xFF, 0x30)] false false)) = true := by decide
/-- H1. -/
theorem test_halt : nextWith (fun s => s.status == .halted && s.pc == 0x11)
    (runWord 0xFFFF (at10 [] [] false false)) = true := by decide
/-- H2. -/
theorem test_fetch_at_n : faultWith 1 0x100 0x100 (step (State.reset.setPc 0x100)) = true := by decide
/-- H5: the pause comes before the fetch fault. -/
theorem test_pause_before_fetch_fault :
    (match step { State.reset.setPc 0x100 with params := { standardParams with breakpoints := [0x100] } } with
      | .fault f => f.final.pauses
      | .next _ => []
      | .refused _ => []) = [0x100] := by decide
/-- P6 under `R15_ACCESS` = `refuse`: ADDI R13, R15, #2 is refused. -/
theorem test_pc_operand_refused : step (({ at10 [] [] false false with
    params := { standardParams with r15Access := .refuse } } : State).withFetchWord 16 0xDF26) =
      .refused .pcOperand := by rfl
/-- D26. -/
theorem test_launch_refuses_high_address : launch standardParams [(0x100, 1)] [] = .refused .invalidImage := by rfl
/-- P0's image. -/
theorem test_launch_places_image : nextWith (fun s => s.readCell 0 == 0xFFFF && s.pc == 0 && s.sp == 0x100)
    (launch standardParams [(0, 0xFFFF)] []) = true := by decide
/-- A launch with no memory is outside the bounds of rule R8. -/
theorem test_launch_refuses_params : launch { standardParams with memWords := 0 } [] [] = .refused .invalidParams := by rfl

/-! ### The hypotheses of the statements can be met: for each statement with hypotheses a state and operands that meet them
together, at the boundary values of the clauses -/

/-- The state of a test under other launch parameters. -/
def under (p : Params) (s : State) : State := { s with params := p }

/-- The answer is a next state. -/
def isNext (r : Result) : Bool := nextWith (fun _ => true) r

/-- The answer is a fault. -/
def isFault : Result → Bool
  | .fault _ => true
  | .next _ => false
  | .refused _ => false

theorem witness_DecodeOfEncodeIsTheInstruction :
    Instr.wellFormed (standardOpcodeMap.set 13 none) (.jge 0x3FF) = true ∧
    Instr.wellFormed standardOpcodeMap (.pop 15 0xFE) = true ∧ Instr.wellFormed standardOpcodeMap .halt = true := by decide
theorem witness_SignExtensionRoundTrips :
    (-(2 ^ 3) ≤ (-8 : Int) ∧ (-8 : Int) < 2 ^ 3) ∧ (-(2 ^ 3) ≤ (7 : Int) ∧ (7 : Int) < 2 ^ 3) ∧
    (-(2 ^ 0) ≤ (-1 : Int) ∧ (-1 : Int) < 2 ^ 0) := by decide
theorem witness_AddiGivesSumZeroAndCarry : State.reset.params.immCarry = .adder16 ∧
    (under { standardParams with immCarry := .integer } State.reset).params.immCarry = .integer := by decide
theorem witness_SubiGivesDifferenceZeroAndBorrow : State.reset.params.immCarry = .adder16 ∧
    (under { standardParams with immCarry := .integer } State.reset).params.immCarry = .integer := by decide
theorem witness_ShiftsAreLogicalByTheUnsignedCount :
    (State.reset.params.shiftAmount = .zext ∨ (15#4).toNat < 8) ∧
    ((under { standardParams with shiftAmount := .refuseHigh } State.reset).params.shiftAmount = .zext ∨
      (7#4).toNat < 8) := by decide
theorem witness_HighShiftCountsAreRefusedWhenSoSet :
    (under { standardParams with shiftAmount := .refuseHigh } State.reset).params.shiftAmount = .refuseHigh ∧
    8 ≤ (8#4).toNat := by decide
theorem witness_CmpSetsTheFlagsOfSubOnly : isNext (exec (.sub 0 1 2) State.reset) = true := by decide
theorem witness_ConditionalJumpsTestTheirPredicates :
    (at10 [] [] true false).z = true ∧ (at10 [] [] false true).z = false ∧ (at10 [] [] false true).c = true ∧
    (at10 [] [] false false).c = false := by decide
theorem witness_JumpsAfterCompareTestUnsignedOrder :
    isNext (exec (.cmp 0xF 1 2) (at10 [(2, 1)] [] false false)) = true ∧
    isNext (exec (.sub 1 1 2) (at10 [(2, 1)] [] false false)) = true := by decide

/-- The lowest and the highest cell, and cell 0 reached by wrapping from 0xFFFF. -/
theorem witness_LdrLoadsThePhysicalCell :
    (AddressIs (at10 [(1, 1)] [] false false) 1 0xF 0 ∧ IsCell standardParams 0) ∧
    (AddressIs (at10 [(1, 0x100)] [] false false) 1 0xF 0xFF ∧ IsCell standardParams 0xFF) ∧
    AddressIs (under { standardParams with eaOverflow := .wrap } (at10 [(1, 0xFFFF)] [] false false)) 1 1 0 := by
  unfold AddressIs IsCell
  simp only [Params.ports, List.forall_mem_cons, List.not_mem_nil, false_imp_iff, implies_true, and_true]
  decide
theorem witness_LdrFromAnInputPortTakesTheHostsAnswer : State.reset.params.wf = true ∧ State.reset.answers = [] ∧
    AddressIs (at10 [(6, 0xFFFC)] [] false false) 6 0 (standardParams.ioCharIn).toNat ∧
    AddressIs { at10 [(6, 0xFFFC)] [] false false with answers := [0xFFFF, 0] } 6 2 (standardParams.ioIntIn).toNat := by
  unfold AddressIs; decide
theorem witness_StrStoresToThePhysicalCell :
    (AddressIs (at10 [(1, 8)] [] false false) 1 0x8 0 ∧ IsCell standardParams 0) ∧
    (AddressIs (at10 [(1, 0xF8)] [] false false) 1 7 0xFF ∧ IsCell standardParams 0xFF) := by
  unfold AddressIs IsCell
  simp only [Params.ports, List.forall_mem_cons, List.not_mem_nil, false_imp_iff, implies_true, and_true]
  decide
theorem witness_StrToAnOutputPortAppendsTheEvent : State.reset.params.wf = true ∧
    AddressIs (at10 [(6, 0xFFFC)] [] false false) 6 1 (standardParams.ioCharOut).toNat ∧
    AddressIs (at10 [(6, 0xFFFC)] [] false false) 6 3 (standardParams.ioIntOut).toNat := by
  unfold AddressIs; decide
/-- Below 0, at N, below the ports, above 0xFFFF. -/
theorem witness_LoadsAndStoresFaultAsTheTablesSay :
    (AddressIs (at10 [] [] false false) 1 0xF (-1) ∧ IsOutside standardParams (-1)) ∧
    (AddressIs (at10 [(1, 0xFF)] [] false false) 1 1 0x100 ∧ IsOutside standardParams 0x100) ∧
    (AddressIs (at10 [(1, 0xFFFC)] [] false false) 1 0xF 0xFFFB ∧ IsOutside standardParams 0xFFFB) ∧
    (AddressIs (at10 [(1, 0xFFFF)] [] false false) 1 1 0x10000 ∧ IsOutside standardParams 0x10000) := by
  unfold AddressIs IsOutside
  simp only [Params.ports, List.forall_mem_cons, List.not_mem_nil, false_imp_iff, implies_true, and_true]
  refine ⟨?_, ?_, ?_, ?_⟩ <;> decide
/-- The four ports. -/
theorem witness_LoadsAndStoresFaultAsTheTablesSay_ports : standardParams.wf = true ∧
    ∀ k : Fin 4, AddressIs (at10 [(1, 0xFFFC)] [] false false) 1 (BitVec.ofNat 4 k)
      (0xFFFC + BitVec.ofNat 16 k).toNat := by
  unfold AddressIs
  decide
/-- Under `EA_OVERFLOW` = `wrap`: the sum -1 reduced to an output port, and a reduced sum at N. -/
theorem witness_LoadsAndStoresFaultAsTheTablesSay_wrap :
    AddressIs (under { standardParams with eaOverflow := .wrap } (at10 [] [] false false)) 1 0xF 0xFFFF ∧
    (standardParams.ioIntOut).toNat = 0xFFFF ∧
    (AddressIs (under { standardParams with memWords := 1, eaOverflow := .wrap } (at10 [(1, 0xFFFF)] [] false false)) 1 2 1 ∧
      IsOutside { standardParams with memWords := 1, eaOverflow := .wrap } 1) := by
  unfold AddressIs IsOutside
  simp only [Params.ports, List.forall_mem_cons, List.not_mem_nil, false_imp_iff, implies_true, and_true]
  refine ⟨?_, ?_, ?_⟩ <;> decide
theorem witness_LoadAfterStoreReturnsTheStoredWord :
    nextWith (fun t => (storedCell (.str 0 1 7) (at10 [(1, 0xF8)] [] false false) == some 0xFF) &&
      (t.readReg 2).toNat == 0x100)
      (exec (.str 0 1 7) (at10 [(1, 0xF8), (2, 0x100)] [] false false)) = true ∧
    AddressIs (at10 [(1, 0xF8), (2, 0x100)] [] false false) 2 0xF 0xFF := by unfold AddressIs; decide
theorem witness_StoreIsSeenByTheNextFetch :
    (at10 [(1, 0x10), (2, 0x0125)] [] false false).status = .running ∧
    isNext (exec (.str 2 1 0) (at10 [(1, 0x10), (2, 0x0125)] [] false false)) = true ∧
    storedCell (.str 2 1 0) (at10 [(1, 0x10), (2, 0x0125)] [] false false) = some 0x10 ∧
    decode standardOpcodeMap 0x0125 = .ok (.add 0 1 2) ∧ pcRefused standardParams (.add 0 1 2) = false := by decide

/-- Stack pointers N and 1, with a register that is not the stack pointer and with it. -/
theorem witness_PushStoresAtTheDecrementedStackPointer :
    ((at10 [(14, 0x100)] [] false false).sp.toNat + 0xFFFF) % 65536 < standardParams.memWords ∧
    ((at10 [(14, 1)] [] false false).sp.toNat + 0xFFFF) % 65536 < standardParams.memWords ∧
    (0 : Reg) ≠ standardParams.spIndex ∧ (14 : Reg) = standardParams.spIndex := by decide
theorem witness_PopLoadsAndIncrementsTheStackPointer :
    (at10 [(14, 0)] [] false false).sp.toNat < standardParams.memWords ∧
    (at10 [(14, 0xFF)] [] false false).sp.toNat < standardParams.memWords ∧
    (0 : Reg) ≠ standardParams.spIndex ∧ (14 : Reg) = standardParams.spIndex := by decide
/-- Stack pointers 0, N + 1 and the port address 0xFFFD for PUSH, N and 0xFFFF for POP. -/
theorem witness_StackAccessesOutsideMemoryFault :
    standardParams.memWords ≤ ((at10 [(14, 0)] [] false false).sp.toNat + 0xFFFF) % 65536 ∧
    standardParams.memWords ≤ ((at10 [(14, 0x101)] [] false false).sp.toNat + 0xFFFF) % 65536 ∧
    standardParams.memWords ≤ ((at10 [(14, 0xFFFD)] [] false false).sp.toNat + 0xFFFF) % 65536 ∧
    standardParams.memWords ≤ (at10 [(14, 0x100)] [] false false).sp.toNat ∧
    standardParams.memWords ≤ (at10 [(14, 0xFFFF)] [] false false).sp.toNat := by decide
theorem witness_PopAfterPushRestoresTheStackPointer :
    isNext (exec (.push 3 0) (at10 [(14, 0x100)] [] false false)) = true ∧
    isNext (exec (.push 14 0xFF) (at10 [(14, 1)] [] false false)) = true ∧
    (15 : Reg) = standardParams.pcIndex ∧ (15 : Reg) ≠ standardParams.spIndex := by decide

theorem witness_HaltWordEndsTheRun : (at10 [] [(0x10, 0xFFFF)] false false).status = .running ∧
    (at10 [] [(0x10, 0xFFFF)] false false).pc.toNat < standardParams.memWords ∧
    (at10 [] [(0x10, 0xFFFF)] false false).readCell 0x10 = 0xFFFF := by decide
theorem witness_NothingRunsAfterHalt : (State.reset.halt).status = .halted := by decide
theorem witness_OnlyTheHaltWordEndsARun : (at10 [] [(0x10, 0xFFFF)] false false).status = .running ∧
    (match cycleEnd (at10 [] [(0x10, 0xFFFF)] false false) with
      | .halted _ => true
      | .running _ => false
      | .faulted _ _ => false
      | .refused _ => false) = true := by decide
/-- In the last cell, so that the incremented program counter is N. -/
theorem witness_StepRunsTheDecodedInstruction :
    ((State.reset.setPc 0xFF).placeWord 0x0125).status = .running ∧
    ((State.reset.setPc 0xFF).placeWord 0x0125).pc.toNat < standardParams.memWords ∧
    decode standardOpcodeMap (((State.reset.setPc 0xFF).placeWord 0x0125).readCell 0xFF) = .ok (.add 0 1 2) ∧
    pcRefused standardParams (.add 0 1 2) = false := by decide
theorem witness_FetchOutsideMemoryFaultsAndDoesNothing :
    (State.reset.setPc 0x100).status = .running ∧ standardParams.memWords ≤ (State.reset.setPc 0x100).pc.toNat ∧
    standardParams.memWords ≤ (State.reset.setPc 0xFFFD).pc.toNat := by decide
theorem witness_UndefinedOpcodesFaultAsUnknownInstruction : standardParams.memWords > State.reset.pc.toNat ∧
    State.reset.status = .running ∧ (standardOpcodeMap.set 0 none)[0] = none ∧
    isFault (step (under { standardParams with opcodeMap := standardOpcodeMap.set 0 none } State.reset)) = true ∧
    (standardOpcodeMap.set 15 none)[15] = none ∧
    isFault (step ((under { standardParams with opcodeMap := standardOpcodeMap.set 15 none } State.reset).placeWord
      0xFFEF)) = true ∧
    State.reset.params.opcodeMap = standardOpcodeMap := by decide
theorem witness_PcOperandsAreRefusedOnlyWhenSoSet :
    (at10 [] [(0x10, 0xDF26)] false false).status = .running ∧
    (at10 [] [(0x10, 0xDF26)] false false).pc.toNat < standardParams.memWords ∧
    decode standardOpcodeMap ((at10 [] [(0x10, 0xDF26)] false false).readCell 0x10) = .ok (.addi 13 15 2) ∧
    (15 : Reg) ∈ usedRegs (.addi 13 15 2) ∧
    (under { standardParams with r15Access := .refuse } State.reset).params.r15Access = .refuse ∧
    State.reset.params.r15Access = .aliased := by decide
theorem witness_EveryCycleCountsOneAndPausesAtBreakpoints :
    isNext (step (under { standardParams with breakpoints := [0] } State.reset)) = true ∧
    isFault (step (State.reset.setPc 0x100)) = true ∧ State.reset.status = .running := by decide
theorem witness_FaultsArePrecise : isFault (exec (.ldr 0 1 0xF) State.reset) = true ∧
    isFault (step (State.reset.setPc 0x100)) = true ∧
    isFault (step (State.reset.placeWord 0x00F2)) = true := by decide
theorem witness_OnlyMemoryInstructionsFaultInExecute : isFault (exec (.pop 0 0) State.reset) = true ∧
    isFault (exec (.str 0 1 0) (at10 [(1, 0xFFFC)] [] false false)) = true := by decide
theorem witness_StepsAreRefusedOnlyUnderRefusingSettings :
    step ((under { standardParams with shiftAmount := .refuseHigh } State.reset).placeWord 0x008B) =
      .refused .shiftCountHigh := by rfl

theorem witness_OnlyAluInstructionsWriteTheFlags : isNext (exec (.mov 0 0) State.reset) = true ∧
    writesZ (.mov 0 0) = false ∧ writesC (.mov 0 0) = false ∧ isNext (exec (.and 0 1 2) State.reset) = true ∧
    writesC (.and 0 1 2) = false := by decide
theorem witness_InstructionsWriteOnlyTheirRegisters :
    isNext (exec (.pop 0 0) (at10 [(14, 0xFF)] [] false false)) = true := by decide
theorem witness_OnlyTheStoredCellAndTheMarkedBitChange :
    isNext (exec (.str 0 1 0) State.reset) = true ∧ storedCell (.str 0 1 0) State.reset = some 0 ∧
    markedCell (.str 0 1 0) State.reset = some 0 ∧ markedCell (.ldr 0 1 0) State.reset ≠ some 1 := by decide
theorem witness_TheConsoleTraceOnlyGrows :
    nextWith (fun t => t.trace == [.charOut 0])
      (step ((at10 [(6, 0xFFFD)] [] false false).placeWord 0x0603)) = true := by decide
theorem witness_TheParametersNeverChange :
    isNext (Host.Core.run Sys2Proof.core 3 State.reset) = true := by decide
theorem witness_StepKeepsStatesWellFormed : (at10 [] [(0, 1), (0xFF, 2)] false false).wf ∧
    isNext (step (at10 [] [(0, 1), (0xFF, 2)] false false)) = true ∧
    isFault (step ((at10 [] [(0, 1), (0xFF, 2)] false false).setPc 0x100)) = true := by decide
/-- The two memories are written in different orders. -/
theorem witness_CanonicalMemoriesAreEqualWhenTheyReadAlike :
    Memory.wf ((Memory.write [] 1 5).write 0 7) ∧ Memory.wf ((Memory.write [] 0 7).write 1 5) ∧
    (∀ a, ((Memory.write [] 1 5).write 0 7).read a = ((Memory.write [] 0 7).write 1 5).read a) :=
  ⟨by decide, by decide, fun _ => rfl⟩
theorem witness_JumpToItselfRunsForEver : ((State.reset.setPc 0xFF).placeWord 0xFFF0).status = .running ∧
    ((State.reset.setPc 0xFF).placeWord 0xFFF0).pc.toNat < standardParams.memWords ∧
    ((State.reset.setPc 0xFF).placeWord 0xFFF0).readCell 0xFF = 0xFFF0 ∧
    State.reset.params.opcodeMap = standardOpcodeMap := by decide
theorem witness_TheZeroWordOnlyAdvancesThePc : State.reset.status = .running ∧
    State.reset.pc.toNat < State.reset.params.memWords ∧ State.reset.readCell State.reset.pc.toNat = 0 ∧
    State.reset.params.opcodeMap = standardOpcodeMap := by decide
theorem witness_ResetGivesTheValuesOfTheTable : standardParams.spIndex ≠ standardParams.pcIndex ∧
    (0 : Reg) ≠ standardParams.spIndex ∧ (0 : Reg) ≠ standardParams.pcIndex ∧ (13 : Reg).val < 14 := by decide
/-- An image at both ends of memory, one with address N, one with an address twice. -/
theorem witness_LaunchPlacesTheImageOrRefusesIt : standardParams.wf = true ∧
    (∀ cell ∈ [(0xFF, 0#16), (0, 0xFFFF#16)], cell.1 < standardParams.memWords) ∧
    ([(0xFF, 0#16), (0, 0xFFFF#16)].map (·.1)).Nodup ∧
    (∃ cell ∈ [(0, 1#16), (0x100, 1#16)], standardParams.memWords ≤ cell.1) ∧
    ¬ ([(3, 1#16), (3, 1#16)].map (·.1)).Nodup := by decide

end Sys2Proof.Tests
end

section
/-! SUPPORT. The flags under every instruction (10_state.md rules R27, R28), and the proof of O39. -/

namespace Sys2Proof.Machine

variable {s t : State} {i : Instr}

/-- A conditional jump reads the flags only, whether it is taken or not (43_control.md rule R180). -/
theorem State.jumpIf_keepsFlags (s : State) (taken : Bool) (offset : Int) : KeepsFlags s (s.jumpIf taken offset) := by
  cases taken <;> exact ⟨rfl, rfl⟩

/-- Data movement, control flow and HALT leave both flags as they were (rule R27). -/
theorem exec_keepsFlags_of_not_writesZ (hz : writesZ i = false) (h : exec i s = .next t) : KeepsFlags s t := by
  cases i
  case mov | jmp | halt => cases h; exact ⟨rfl, rfl⟩
  case jeq | jne | jlt | jge => cases h; exact s.jumpIf_keepsFlags _ _
  case ldr => rcases execLdr_next h with ⟨a, -, rfl⟩ | ⟨-, rfl⟩ | ⟨-, rfl⟩ <;> exact ⟨rfl, rfl⟩
  case str => rcases execStr_next h with ⟨a, -, rfl⟩ | ⟨-, rfl⟩ | ⟨-, rfl⟩ <;> exact ⟨rfl, rfl⟩
  case push => obtain ⟨-, rfl⟩ := execPush_next h; exact ⟨rfl, rfl⟩
  case pop => obtain ⟨-, rfl⟩ := execPop_next h; exact ⟨rfl, rfl⟩
  all_goals cases hz

/-- Carry also stays as it was under AND, OR, SHR and SHL, which store their result with Z alone (rule R28). -/
theorem exec_keepsCarry_of_not_writesC (hc : writesC i = false) (h : exec i s = .next t) : t.c = s.c := by
  cases hz : writesZ i with
  | false => exact (exec_keepsFlags_of_not_writesZ hz h).2
  | true =>
    cases i
    case and | or => cases h; rfl
    case shr => obtain rfl := execShr_next h; rfl
    case shl => obtain rfl := execShl_next h; rfl
    all_goals simp [writesZ, writesC] at hz hc

/-- Settles O39: the instructions outside the two tables keep the flag, case by case over the instruction. -/
theorem onlyAluInstructionsWriteTheFlags : Obligations.OnlyAluInstructionsWriteTheFlags := by
  intro i s t h
  exact ⟨fun hz => (exec_keepsFlags_of_not_writesZ hz h).1, fun hc => exec_keepsCarry_of_not_writesC hc h⟩

end Sys2Proof.Machine
end

section
/-! SUPPORT. The cycle that fetches outside memory (40_cycle.md rule R112), and the proof of O32. -/

namespace Sys2Proof.Machine

variable {s : State} {f : Fault}

/-- The converse of the first case of `fetchDecode_fault`: the bound check comes before the read, so no word is decoded. -/
theorem fetchDecode_of_outside (hb : s.params.memWords ≤ s.pc.toNat) :
    fetchDecode s = .fault (.memoryViolation .fetch s.pc s.pc.toNat s.beginCycle) := by
  have hpc : s.beginCycle.pc = s.pc := by simp
  have hm : ¬ s.beginCycle.inMemory s.pc.toNat = true := by
    rw [State.inMemory_iff, State.beginCycle_params]
    exact Nat.not_lt.2 hb
  unfold fetchDecode
  simp only [hpc, if_neg hm, raiseAt]

/-- A fault of the first half of a cycle is the fault of the step: no execute follows it. -/
theorem step_of_fetchDecode_fault (hs : s.status = .running) (hf : fetchDecode s = .fault f) : step s = .fault f := by
  unfold step
  simp only [hs, hf]

/-- What the beginning of a cycle leaves alone: all but the count of cycles and the pauses (rules R111, R287). -/
theorem State.beginCycle_frame (s : State) :
    KeepsRegsBut [] s s.beginCycle ∧ KeepsFlags s s.beginCycle ∧ s.beginCycle.mem = s.mem ∧
      s.beginCycle.marked = s.marked ∧ KeepsConsole s s.beginCycle ∧ s.beginCycle.ir = s.ir ∧
      s.beginCycle.status = s.status ∧ s.beginCycle.params = s.params := by
  refine ⟨fun r _ => s.readReg_beginCycle r, ?_⟩
  rw [State.beginCycle_eq]
  exact ⟨⟨rfl, rfl⟩, rfl, rfl, ⟨rfl, rfl, rfl⟩, rfl, rfl, rfl⟩

/-- Settles O32: the fault carries the state in which the cycle began, before the fetch. -/
theorem fetchOutsideMemoryFaultsAndDoesNothing : Obligations.FetchOutsideMemoryFaultsAndDoesNothing := by
  intro s hs hb
  exact ⟨s.beginCycle, step_of_fetchDecode_fault hs (fetchDecode_of_outside hb), s.beginCycle_frame⟩

end Sys2Proof.Machine
end

section
/-! SUPPORT. The ALU family (41_alu.md rules R130 to R138): the word of an instruction decodes to it, what storing a result
with its flags changes, the sums and differences with an immediate; and the proofs of O5 to O9. -/

namespace Sys2Proof.Machine

/-! ### The words (30_encoding.md rules R81 to R90) -/

/-- An opcode other than 0xF never gives the word of HALT, so it alone selects the kind (rules R84, R85). -/
theorem decode_joinWord_operandBits {m : OpcodeMap} {i : Instr} {k : Kind} {op : BitVec 4} (hi : i.kind = some k)
    (hk : m.kindOf op = some k) (hop : op ≠ 0xF) : decode m (joinWord (operandBits i) op) = .ok i := by
  have hw : joinWord (operandBits i) op ≠ haltWord := fun h => hop ((joinWord_eq_haltWord _ _).1 h).2
  simp only [decode, if_neg hw, unpack_joinWord_op, hk, Laws.build_operandBits hi]

/-! ### The flags -/

theorem zeroFlag_iff_eq_zero (v : Word) : zeroFlag v = true ↔ v = 0 := beq_iff_eq

/-- Z of a result that is known as an integer (rule R130). -/
theorem zeroFlag_iff_of_toNat_eq {v : Word} {x : Int} (h : (v.toNat : Int) = x) : zeroFlag v = true ↔ x = 0 := by
  rw [zeroFlag_iff, ← h, Int.natCast_eq_zero]

theorem carryFlag_iff (a b : Word) : carryFlag a b = true ↔ 0xFFFF < a.toNat + b.toNat := decide_eq_true_iff

theorem borrowFlag_iff (a b : Word) : borrowFlag a b = true ↔ a.toNat < b.toNat := decide_eq_true_iff

/-! ### A stored result and its frame (10_state.md rule R28) -/

theorem State.readReg_storeZ_self (s : State) (rd : Reg) (v : Word) : (s.storeZ rd v).readReg rd = v := by simp

theorem State.readReg_storeZC_self (s : State) (rd : Reg) (v : Word) (carry : Bool) :
    (s.storeZC rd v carry).readReg rd = v :=
  s.readReg_storeZ_self rd v

theorem State.storeZ_onlyRegsAndFlags (s : State) (rd : Reg) (v : Word) : OnlyRegsAndFlags [rd] s (s.storeZ rd v) := by
  refine ⟨fun r hr => ?_, fun _ _ => rfl, fun _ _ => Iff.rfl, ⟨rfl, rfl, rfl⟩, ⟨rfl, rfl, rfl, rfl, rfl⟩⟩
  rw [List.mem_singleton] at hr
  simp [hr]

/-- Carry is a flag, so the frame is that of the result stored with Z alone. -/
theorem State.storeZC_onlyRegsAndFlags (s : State) (rd : Reg) (v : Word) (carry : Bool) :
    OnlyRegsAndFlags [rd] s (s.storeZC rd v carry) :=
  s.storeZ_onlyRegsAndFlags rd v

/-! ### Sums and differences with an immediate (rules R131, R137, R138) -/

theorem toNat_sumWord_sext (a : Word) (imm4 : BitVec 4) :
    ((sumWord a (sext imm4)).toNat : Int) = (a.toNat + imm4.toInt) % 65536 := by
  rw [toNat_sumWord]
  push_cast
  rw [toNat_sext, Int.add_emod_emod]

theorem toNat_diffWord_sext (a : Word) (imm4 : BitVec 4) :
    ((diffWord a (sext imm4)).toNat : Int) = (a.toNat - imm4.toInt) % 65536 := by
  rw [toNat_diffWord, toNat_sext, Int.sub_emod_emod]

theorem immCarryFlag_adder16_iff (a : Word) (imm4 : BitVec 4) :
    immCarryFlag .adder16 a imm4 = true ↔ 0xFFFF < a.toNat + imm4.toInt % 65536 := by
  rw [immCarryFlag, carryFlag_iff, ← toNat_sext]
  exact_mod_cast Iff.rfl

theorem immCarryFlag_integer_iff (a : Word) (imm4 : BitVec 4) :
    immCarryFlag .integer a imm4 = true ↔ 0xFFFF < a.toNat + imm4.toInt := by
  rw [immCarryFlag, simm_eq_toInt, decide_eq_true_iff]

theorem immBorrowFlag_adder16_iff (a : Word) (imm4 : BitVec 4) :
    immBorrowFlag .adder16 a imm4 = true ↔ a.toNat < imm4.toInt % 65536 := by
  rw [immBorrowFlag, borrowFlag_iff, ← toNat_sext, Int.ofNat_lt]

theorem immBorrowFlag_integer_iff (a : Word) (imm4 : BitVec 4) :
    immBorrowFlag .integer a imm4 = true ↔ a.toNat - imm4.toInt < 0 := by
  rw [immBorrowFlag, simm_eq_toInt, decide_eq_true_iff]

/-! ### The instructions -/

/-- Settles O5: the result is stored with Z and C, whichever register Rd is, the program counter too. -/
theorem addGivesSumZeroAndCarry : Obligations.AddGivesSumZeroAndCarry := by
  refine ⟨fun d m n => decode_joinWord_operandBits (i := .add d.toFin m.toFin n.toFin) rfl rfl (by decide),
    fun rd rm rn s => ⟨_, rfl, ?_, ?_, ?_, s.storeZC_onlyRegsAndFlags rd _ _⟩⟩
  · rw [State.readReg_storeZC_self, toNat_sumWord]
  · rw [← toNat_sumWord]; exact zeroFlag_iff _
  · exact carryFlag_iff _ _

/-- Settles O6: as O5, with the exact integer difference and the borrow. -/
theorem subGivesDifferenceZeroAndBorrow : Obligations.SubGivesDifferenceZeroAndBorrow := by
  refine ⟨fun d m n => decode_joinWord_operandBits (i := .sub d.toFin m.toFin n.toFin) rfl rfl (by decide),
    fun rd rm rn s => ⟨_, rfl, ?_, ?_, ?_, s.storeZC_onlyRegsAndFlags rd _ _⟩⟩
  · rw [State.readReg_storeZC_self, toNat_diffWord]
  · exact zeroFlag_iff_of_toNat_eq (toNat_diffWord _ _)
  · exact borrowFlag_iff _ _

/-- Settles O7: both results are stored with Z alone, so Carry stays. -/
theorem andOrGiveBitwiseResultAndKeepCarry : Obligations.AndOrGiveBitwiseResultAndKeepCarry := by
  refine ⟨fun d m n => decode_joinWord_operandBits (i := .and d.toFin m.toFin n.toFin) rfl rfl (by decide),
    fun d m n => decode_joinWord_operandBits (i := .or d.toFin m.toFin n.toFin) rfl rfl (by decide),
    fun rd rm rn s => ⟨⟨_, rfl, fun k => ?_, ?_, rfl, s.storeZ_onlyRegsAndFlags rd _⟩,
      ⟨_, rfl, fun k => ?_, ?_, rfl, s.storeZ_onlyRegsAndFlags rd _⟩⟩⟩
  · rw [State.readReg_storeZ_self, BitVec.getLsbD_and]
  · rw [State.readReg_storeZ_self]; exact zeroFlag_iff_eq_zero _
  · rw [State.readReg_storeZ_self, BitVec.getLsbD_or]
  · rw [State.readReg_storeZ_self]; exact zeroFlag_iff_eq_zero _

/-- Settles O8: the sum with the sign-extended word is the exact sum mod 2^16 under either setting of `IMM_CARRY`; only C
differs. -/
theorem addiGivesSumZeroAndCarry : Obligations.AddiGivesSumZeroAndCarry := by
  refine ⟨fun d m i => decode_joinWord_operandBits (i := .addi d.toFin m.toFin i) rfl rfl (by decide),
    fun rd rm imm4 s => ⟨_, rfl, ?_, ?_, fun hk => ?_, fun hk => ?_, s.storeZC_onlyRegsAndFlags rd _ _⟩⟩
  · rw [State.readReg_storeZC_self, toNat_sumWord_sext]
  · exact zeroFlag_iff_of_toNat_eq (toNat_sumWord_sext _ _)
  · rw [hk]; exact immCarryFlag_adder16_iff _ _
  · rw [hk]; exact immCarryFlag_integer_iff _ _

/-- Settles O9: as O8, with the difference and the borrow. -/
theorem subiGivesDifferenceZeroAndBorrow : Obligations.SubiGivesDifferenceZeroAndBorrow := by
  refine ⟨fun d m i => decode_joinWord_operandBits (i := .subi d.toFin m.toFin i) rfl rfl (by decide),
    fun rd rm imm4 s => ⟨_, rfl, ?_, ?_, fun hk => ?_, fun hk => ?_, s.storeZC_onlyRegsAndFlags rd _ _⟩⟩
  · rw [State.readReg_storeZC_self, toNat_diffWord_sext]
  · exact zeroFlag_iff_of_toNat_eq (toNat_diffWord_sext _ _)
  · rw [hk]; exact immBorrowFlag_adder16_iff _ _
  · rw [hk]; exact immBorrowFlag_integer_iff _ _

end Sys2Proof.Machine
end

section
/-! SUPPORT. The conditional jumps (43_control.md rules R180 to R186): the predicates, what adding an offset to the program
counter changes, a jump under a predicate; and the proof of O15. -/

namespace Sys2Proof.Machine

/-! ### The predicates (rule R182) -/

theorem State.condEq_iff (s : State) : s.condEq = true ↔ s.z = true := Iff.rfl

theorem State.condNe_iff (s : State) : s.condNe = true ↔ s.z = false := by simp [State.condNe]

theorem State.condLt_iff (s : State) : s.condLt = true ↔ s.z = false ∧ s.c = true := by simp [State.condLt]

theorem State.condGe_iff (s : State) : s.condGe = true ↔ s.z = true ∨ s.c = false := by simp [State.condGe]

/-- JGE is taken exactly when JLT is not. -/
theorem State.condGe_iff_not_lt (s : State) : s.condGe = true ↔ ¬ (s.z = false ∧ s.c = true) := by
  rw [s.condGe_iff, not_and_or, Bool.not_eq_false, Bool.not_eq_true]

/-! ### Writing the program counter (10_state.md rule R21) -/

theorem OnlyRegs.refl (written : List Reg) (s : State) : OnlyRegs written s s :=
  ⟨⟨fun _ _ => rfl, fun _ _ => rfl, fun _ _ => Iff.rfl, ⟨rfl, rfl, rfl⟩, ⟨rfl, rfl, rfl, rfl, rfl⟩⟩, ⟨rfl, rfl⟩⟩

/-- The frame of a result stored with Z, before Z is set: a register write alone keeps the flags too. -/
theorem State.writeReg_onlyRegs (s : State) (r : Reg) (v : Word) : OnlyRegs [r] s (s.writeReg r v) :=
  ⟨s.storeZ_onlyRegsAndFlags r v, ⟨rfl, rfl⟩⟩

theorem State.jumpBy_onlyRegs (s : State) (offset : Int) : OnlyRegs [s.params.pcIndex] s (s.jumpBy offset) :=
  s.writeReg_onlyRegs _ _

theorem State.toNat_pc_jumpBy (s : State) (offset : Int) :
    ((s.jumpBy offset).pc.toNat : Int) = (s.pc.toNat + offset) % 65536 := by simp

/-! ### A jump under a predicate (rule R180) -/

/-- An instruction that answers `jumpIf` jumps under any reading of its condition as a proposition. -/
theorem jumpsWhen_of_exec_eq_jumpIf {i : Instr} {s : State} {taken : Bool} {holds : Prop} {offset : Int}
    (hexec : exec i s = .next (s.jumpIf taken offset)) (htaken : taken = true ↔ holds) : JumpsWhen i s holds offset := by
  refine ⟨_, hexec, ?_⟩
  cases taken with
  | true =>
    have hh : holds := htaken.1 rfl
    exact ⟨fun _ => s.toNat_pc_jumpBy offset, fun hn => absurd hh hn, s.jumpBy_onlyRegs offset⟩
  | false =>
    have hn : ¬ holds := fun hh => Bool.false_ne_true (htaken.2 hh)
    exact ⟨fun hh => absurd hh hn, fun _ => rfl, OnlyRegs.refl _ s⟩

theorem exec_jeq (v : BitVec 10) (s : State) : exec (.jeq v) s = .next (s.jumpIf s.condEq v.toInt) := by
  rw [← simm_eq_toInt]; rfl

theorem exec_jne (v : BitVec 10) (s : State) : exec (.jne v) s = .next (s.jumpIf s.condNe v.toInt) := by
  rw [← simm_eq_toInt]; rfl

theorem exec_jlt (v : BitVec 10) (s : State) : exec (.jlt v) s = .next (s.jumpIf s.condLt v.toInt) := by
  rw [← simm_eq_toInt]; rfl

theorem exec_jge (v : BitVec 10) (s : State) : exec (.jge v) s = .next (s.jumpIf s.condGe v.toInt) := by
  rw [← simm_eq_toInt]; rfl

/-- Settles O15: each word is the instruction's own word, and each instruction is `jumpIf` under its predicate. -/
theorem conditionalJumpsTestTheirPredicates : Obligations.ConditionalJumpsTestTheirPredicates := by
  refine ⟨fun v => ⟨?_, ?_, ?_, ?_⟩, fun v s => ⟨?_, ?_, ?_, ?_, ?_⟩⟩
  · exact decode_joinWord_operandBits (i := .jeq v) rfl rfl (by decide)
  · exact decode_joinWord_operandBits (i := .jne v) rfl rfl (by decide)
  · exact decode_joinWord_operandBits (i := .jlt v) rfl rfl (by decide)
  · exact decode_joinWord_operandBits (i := .jge v) rfl rfl (by decide)
  · exact jumpsWhen_of_exec_eq_jumpIf (exec_jeq v s) s.condEq_iff
  · exact jumpsWhen_of_exec_eq_jumpIf (exec_jne v s) s.condNe_iff
  · exact jumpsWhen_of_exec_eq_jumpIf (exec_jlt v s) s.condLt_iff
  · exact jumpsWhen_of_exec_eq_jumpIf (exec_jge v s) s.condGe_iff
  · exact jumpsWhen_of_exec_eq_jumpIf (exec_jge v s) s.condGe_iff_not_lt

end Sys2Proof.Machine
end

section
/-! SUPPORT. The words without an instruction and the fault they raise (60_exceptions.md rule R253, 40_cycle.md rule R117),
and the proof of O33. -/

namespace Sys2Proof.Machine

variable {s t : State} {i : Instr} {m : OpcodeMap} {a w : Word}

/-! ### The decoder's errors (30_encoding.md rules R84, R85, R98) -/

/-- The opcode the decoder looks up is bits 3..0 of the word. -/
theorem kindOf_unpack_op (m : OpcodeMap) (w : Word) : m.kindOf (unpack w).op = m[w.toNat % 16]'(by omega) := by
  have hop : (unpack w).op.toNat = w.toNat % 16 := (unpack_toNat w).1
  simp only [OpcodeMap.kindOf, Fin.getElem_fin, BitVec.val_toFin, hop]

/-- The only error is the word itself, with an undefined opcode, and HALT is never one. -/
theorem decode_eq_error_iff {e : DecodeError} :
    decode m w = .error e ↔ (m.kindOf (unpack w).op = none ∧ w ≠ haltWord) ∧ e = .unknownInstruction w := by
  unfold decode
  by_cases hw : w = haltWord
  · simp [hw]
  · cases hk : m.kindOf (unpack w).op <;> simp [hw, eq_comm]

theorem standardOpcodeMap_kindOf_ne_none : ∀ op : BitVec 4, standardOpcodeMap.kindOf op ≠ none := by decide

/-! ### Where the fault comes from -/

/-- Only the decode raises UnknownInstruction: the faults of LDR, STR, PUSH and POP are of the two other kinds, and no other
instruction faults. -/
theorem exec_ne_unknownInstruction : exec i s ≠ .fault (.unknownInstruction a w t) := by
  intro h
  cases i
  case ldr => rcases execLdr_fault h with ⟨-, hf⟩ | ⟨-, hf⟩ | ⟨-, hf⟩ <;> cases hf
  case str => rcases execStr_fault h with ⟨-, hf⟩ | ⟨-, hf⟩ | ⟨-, hf⟩ <;> cases hf
  case push => cases (execPush_fault h).2
  case pop => cases (execPop_fault h).2
  case shr => exact execShr_ne_fault h
  case shl => exact execShl_ne_fault h
  all_goals cases h

/-- A cycle that fetches the word of an instruction refuses it or executes it. -/
theorem step_of_decode (hs : s.status = .running) (hb : s.pc.toNat < s.params.memWords)
    (hd : decode s.params.opcodeMap (s.readCell s.pc.toNat) = .ok i) :
    step s = if pcRefused s.params i then .refused .pcOperand else exec i s.beginCycle.fetch := by
  unfold step
  cases hr : pcRefused s.params i with
  | true => simp only [hs, fetchDecode_of_refused hb hd hr, if_true]
  | false => simp only [hs, fetchDecode_of_decode hb hd hr, Bool.false_eq_true, if_false]

/-- A cycle that ends in UnknownInstruction fetched a word other than HALT whose opcode is undefined. -/
theorem kindOf_eq_none_of_step_unknownInstruction (h : step s = .fault (.unknownInstruction a w t)) :
    s.params.opcodeMap.kindOf (unpack (s.readCell s.pc.toNat)).op = none ∧ s.readCell s.pc.toNat ≠ haltWord := by
  obtain ⟨hs, ⟨-, hf⟩ | ⟨hb, -⟩ | ⟨-, j, -, hexec⟩⟩ := step_fault h
  · cases hf
  · cases hd : decode s.params.opcodeMap (s.readCell s.pc.toNat) with
    | ok i =>
      rw [step_of_decode hs hb hd] at h
      split at h
      · cases h
      · exact absurd h exec_ne_unknownInstruction
    | error e => exact (decode_eq_error_iff.1 hd).1
  · exact absurd hexec exec_ne_unknownInstruction

/-- Settles O33: the decoder's error is the fault of the cycle, and no other part of a cycle raises it; the default map
leaves no opcode undefined. -/
theorem undefinedOpcodesFaultAsUnknownInstruction : Obligations.UndefinedOpcodesFaultAsUnknownInstruction := by
  refine ⟨fun s hs hb => ?_, fun s a ir t hm h => ?_⟩
  · rw [← kindOf_unpack_op]
    refine ⟨fun hundef => ?_, fun ⟨t, h⟩ => kindOf_eq_none_of_step_unknownInstruction h⟩
    have hd := decode_eq_error_iff.2 ⟨hundef, rfl⟩
    exact ⟨_, step_of_fetchDecode_fault hs (fetchDecode_of_error hb hd)⟩
  · have hnone := (kindOf_eq_none_of_step_unknownInstruction h).1
    rw [hm] at hnone
    exact standardOpcodeMap_kindOf_ne_none _ hnone

end Sys2Proof.Machine
end

section
/-! SUPPORT. The encoding (30_encoding.md): which word an instruction has, that the decoder reads it back, and the proofs of
O1 to O4. -/

namespace Sys2Proof.Machine

variable {m : OpcodeMap} {i : Instr} {k : Kind} {op : BitVec 4} {w : Word}

/-! ### The word of an instruction (rules R84, R85) -/

theorem kind_eq_none_iff : i.kind = none ↔ i = .halt := by cases i <;> simp [Instr.kind]

/-- With a kind, an instruction is well formed exactly when the map gives its kind an opcode and its word is not HALT's. -/
theorem wellFormed_iff_of_kind (hi : i.kind = some k) :
    i.wellFormed m = true ↔ ∃ op, m.opcodeOf k = some op ∧ joinWord (operandBits i) op ≠ haltWord := by
  have hw (op) : joinWord (operandBits i) op = haltWord ↔ i.fieldsAllOnes = true ∧ op = 0xF := by
    rw [joinWord_eq_haltWord, fieldsAllOnes_iff]
  unfold Instr.wellFormed
  cases hop : m.opcodeOf k with
  | none => simp [hi, hop]
  | some op => cases hf : i.fieldsAllOnes <;> simp [hi, hop, hw, hf]

theorem encode_of_kind (hi : i.kind = some k) (hop : m.opcodeOf k = some op) :
    encode m i = some (joinWord (operandBits i) op) := by
  simp only [encode, hi, hop, Option.map_some]

/-! ### Decoding -/

theorem decode_haltWord (m : OpcodeMap) : decode m haltWord = .ok .halt := if_pos rfl

/-- A word other than HALT's is built by the kind the map gives to its opcode. -/
theorem decode_of_kindOf (hw : w ≠ haltWord) (hk : m.kindOf (unpack w).op = some k) :
    decode m w = .ok (build k (unpack w)) := by
  simp only [decode, if_neg hw, hk]

/-- Settles O1: an instruction with a kind is built again from its own operand bits, and HALT has its own word. -/
theorem decodeOfEncodeIsTheInstruction : Obligations.DecodeOfEncodeIsTheInstruction := by
  intro m i hwf
  cases hi : i.kind with
  | none =>
    obtain rfl := kind_eq_none_iff.1 hi
    exact ⟨haltWord, rfl, decode_haltWord m⟩
  | some k =>
    obtain ⟨op, hop, hw⟩ := (wellFormed_iff_of_kind hi).1 hwf
    have hk : m.kindOf (unpack (joinWord (operandBits i) op)).op = some k := by
      rw [unpack_joinWord_op]; exact opcodeOf_sound hop
    exact ⟨_, encode_of_kind hi hop, by rw [decode_of_kindOf hw hk, Laws.build_operandBits hi]⟩

/-- Settles O2: the default map gives every opcode a kind and every kind its opcode back, and the fields lose no bit. -/
theorem everyWordDecodesAndEncodesBack : Obligations.EveryWordDecodesAndEncodesBack := by
  intro w
  by_cases hw : w = haltWord
  · subst hw
    exact ⟨.halt, decode_haltWord _, rfl, rfl⟩
  · obtain ⟨k, hk⟩ := Option.ne_none_iff_exists'.1 (standardOpcodeMap_kindOf_ne_none (unpack w).op)
    have hkind := build_kind k (unpack w)
    have hop := opcodeOf_standard _ hk
    have hword : joinWord (operandBits (build k (unpack w))) (unpack w).op = w := by
      rw [operandBits_build, joinWord_unpack]
    refine ⟨_, decode_of_kindOf hw hk, (wellFormed_iff_of_kind hkind).2 ⟨_, hop, ?_⟩, ?_⟩
    · rwa [hword]
    · rw [encode_of_kind hkind hop, hword]

/-- Settles O3: each of the twenty words is decoded. -/
theorem specWordsDecode : Obligations.SpecWordsDecode := by
  unfold Obligations.SpecWordsDecode
  decide

/-- Settles O4: the routine gives the two's-complement value of the field, and truncation loses nothing of a value that the
width holds. -/
theorem signExtensionRoundTrips : Obligations.SignExtensionRoundTrips := by
  intro n v hlo hhi
  have h2 : ((2 ^ (n + 1) : Nat) : Int) = 2 * 2 ^ n := by push_cast; ring
  rw [simm_eq_toInt, BitVec.toInt_ofInt]
  apply Int.bmod_eq_of_le <;> omega

end Sys2Proof.Machine
end

section
/-! SUPPORT. SHR, SHL and CMP (41_alu.md rules R136, R139, R140; 30_encoding.md rule R92), and the proofs of O10 to O12. -/

namespace Sys2Proof.Machine

variable {s : State} {rd rm : Reg} {imm4 : BitVec 4}

/-! ### The count (rule R92) -/

/-- A count that is in the low half, or any count under `SHIFT_AMOUNT` = `zext`, is not refused. -/
theorem shiftRefused_eq_false {p : Params} (h : p.shiftAmount = .zext ∨ imm4.toNat < 8) : shiftRefused p imm4 = false := by
  rw [← Bool.not_eq_true, shiftRefused_iff]
  rintro ⟨hs, hc⟩
  rcases h with h | h
  · rw [hs] at h; cases h
  · omega

theorem execShr_of_not_refused (h : shiftRefused s.params imm4 = false) :
    execShr rd rm imm4 s = .next (s.storeZ rd (s.readReg rm >>> shiftCount imm4)) := by
  simp only [execShr, h, Bool.false_eq_true, if_false]

theorem execShl_of_not_refused (h : shiftRefused s.params imm4 = false) :
    execShl rd rm imm4 s = .next (s.storeZ rd (s.readReg rm <<< shiftCount imm4)) := by
  simp only [execShl, h, Bool.false_eq_true, if_false]

theorem toNat_ushiftRight_shiftCount (v : Word) (imm4 : BitVec 4) :
    (v >>> shiftCount imm4).toNat = v.toNat / 2 ^ imm4.toNat := by
  rw [BitVec.toNat_ushiftRight, Nat.shiftRight_eq_div_pow, shiftCount_eq]

theorem toNat_shiftLeft_shiftCount (v : Word) (imm4 : BitVec 4) :
    (v <<< shiftCount imm4).toNat = v.toNat * 2 ^ imm4.toNat % 65536 := by
  rw [BitVec.toNat_shiftLeft, Nat.shiftLeft_eq, shiftCount_eq]

/-- Settles O10: both results are stored with Z alone, so Carry stays. -/
theorem shiftsAreLogicalByTheUnsignedCount : Obligations.ShiftsAreLogicalByTheUnsignedCount := by
  intro rd rm imm4 s h
  have hr := shiftRefused_eq_false h
  refine ⟨⟨_, execShr_of_not_refused hr, ?_, ?_, rfl, s.storeZ_onlyRegsAndFlags rd _⟩,
    ⟨_, execShl_of_not_refused hr, ?_, ?_, rfl, s.storeZ_onlyRegsAndFlags rd _⟩⟩
  · rw [State.readReg_storeZ_self, toNat_ushiftRight_shiftCount]
  · rw [← toNat_ushiftRight_shiftCount]; exact zeroFlag_iff _
  · rw [State.readReg_storeZ_self, toNat_shiftLeft_shiftCount]
  · rw [← toNat_shiftLeft_shiftCount]; exact zeroFlag_iff _

/-- Settles O11: the refusal is the first thing either meaning tests. -/
theorem highShiftCountsAreRefusedWhenSoSet : Obligations.HighShiftCountsAreRefusedWhenSoSet := by
  intro rd rm imm4 s hs hc
  have hr : shiftRefused s.params imm4 = true := (shiftRefused_iff _ _).2 ⟨hs, hc⟩
  exact ⟨if_pos hr, if_pos hr⟩

/-! ### CMP (rule R136) -/

/-- Settles O12: CMP and SUB set the flags from the same difference and borrow. -/
theorem cmpSetsTheFlagsOfSubOnly : Obligations.CmpSetsTheFlagsOfSubOnly := by
  refine fun ignored rm rn s => ⟨_, rfl, zeroFlag_diffWord _ _, borrowFlag_iff _ _, fun rd u hu => ?_, ?_⟩
  · cases hu
    exact ⟨rfl, rfl⟩
  · exact ⟨fun _ _ => rfl, fun _ _ => rfl, fun _ _ => Iff.rfl, ⟨rfl, rfl, rfl⟩, ⟨rfl, rfl, rfl, rfl, rfl⟩⟩

end Sys2Proof.Machine
end

section
/-! SUPPORT. MOV and JMP (42_move.md rule R170; 43_control.md rules R181, R189), the conditional jumps after a comparison, and
the proofs of O13, O14 and O16. -/

namespace Sys2Proof.Machine

/-- Settles O13: the sign extension keeps the two's-complement value. -/
theorem movLoadsTheSignedImmediate : Obligations.MovLoadsTheSignedImmediate := by
  refine fun rd imm8 s => ⟨_, rfl, ?_, s.writeReg_onlyRegs rd _⟩
  rw [State.readReg_writeReg, if_pos rfl, toInt_sext (by decide)]

theorem exec_jmp (v : BitVec 12) (s : State) : exec (.jmp v) s = .next (s.jumpBy v.toInt) := by
  rw [← simm_eq_toInt]; rfl

/-- Settles O14: JMP is the unconditional jump by the offset's value. -/
theorem jmpAddsTheOffsetToThePc : Obligations.JmpAddsTheOffsetToThePc :=
  fun v s => ⟨_, exec_jmp v s, s.toNat_pc_jumpBy _, s.jumpBy_onlyRegs _⟩

/-! ### After a comparison (rule R189) -/

/-- The flags of a comparison of two words: equality in Z, unsigned order in C. -/
theorem flags_of_compare {ignored : BitVec 4} {rd rm rn : Reg} {s t : State}
    (h : exec (.cmp ignored rm rn) s = .next t ∨ exec (.sub rd rm rn) s = .next t) :
    (t.z = true ↔ s.readReg rm = s.readReg rn) ∧ (t.c = true ↔ (s.readReg rm).toNat < (s.readReg rn).toNat) := by
  rcases h with h | h <;> cases h <;> exact ⟨zeroFlag_diffWord _ _, borrowFlag_iff _ _⟩

/-- `jumpIf` under a condition that says `holds`. -/
theorem State.jumpIf_eq_ite (s : State) {taken : Bool} {holds : Prop} [Decidable holds] (h : taken = true ↔ holds)
    (offset : Int) : s.jumpIf taken offset = if holds then s.jumpBy offset else s := by
  simp only [State.jumpIf, h]

/-- Settles O16: the four predicates on the flags of a comparison are equality and unsigned order. -/
theorem jumpsAfterCompareTestUnsignedOrder : Obligations.JumpsAfterCompareTestUnsignedOrder := by
  intro ignored rd rm rn v s t h
  obtain ⟨hz, hc⟩ := flags_of_compare h
  have hlt : (s.readReg rm).toNat < (s.readReg rn).toNat → s.readReg rm ≠ s.readReg rn := fun h he => by
    rw [he] at h; exact lt_irrefl _ h
  rw [exec_jeq, exec_jne, exec_jlt, exec_jge]
  refine ⟨congrArg _ (t.jumpIf_eq_ite ?_ _), congrArg _ (t.jumpIf_eq_ite ?_ _), congrArg _ (t.jumpIf_eq_ite ?_ _),
    congrArg _ (t.jumpIf_eq_ite ?_ _)⟩
  · rw [t.condEq_iff, hz]
  · rw [t.condNe_iff, ← Bool.not_eq_true, hz]
  · rw [t.condLt_iff, ← Bool.not_eq_true, hz, hc]
    exact and_iff_right_of_imp hlt
  · rw [t.condGe_iff_not_lt, ← Bool.not_eq_true, hz, hc, and_iff_right_of_imp hlt, not_lt]

end Sys2Proof.Machine
end

section
/-! SUPPORT. What every execute can do, said once: its faults, its refusals, the registers it writes, and what it does to
memory, the access bitmap, the console trace and the status; and the proofs of O37, O40 and O41. -/

namespace Sys2Proof.Machine

variable {s t : State} {i : Instr} {f : Fault} {r : Refusal}

/-! ### Faults and refusals (60_exceptions.md rules R251 to R255) -/

/-- If an execute faults, it is a load, a store, a push or a pop, and the record has that access. -/
theorem exec_fault (h : exec i s = .fault f) :
    ∃ access, accessOf i = some access ∧
      ((∃ addr, f = .memoryViolation access (s.pc - 1) addr s) ∨
       ((access = .load ∨ access = .store) ∧ ∃ port ∈ s.params.ports, f = .ioDirection access (s.pc - 1) port s)) := by
  cases i
  case ldr =>
    refine ⟨.load, rfl, ?_⟩
    rcases execLdr_fault h with ⟨-, rfl⟩ | ⟨-, rfl⟩ | ⟨-, rfl⟩
    · exact .inr ⟨.inl rfl, _, by simp [Params.ports], rfl⟩
    · exact .inr ⟨.inl rfl, _, by simp [Params.ports], rfl⟩
    · exact .inl ⟨_, rfl⟩
  case str =>
    refine ⟨.store, rfl, ?_⟩
    rcases execStr_fault h with ⟨-, rfl⟩ | ⟨-, rfl⟩ | ⟨-, rfl⟩
    · exact .inr ⟨.inr rfl, _, by simp [Params.ports], rfl⟩
    · exact .inr ⟨.inr rfl, _, by simp [Params.ports], rfl⟩
    · exact .inl ⟨_, rfl⟩
  case push => obtain ⟨-, rfl⟩ := execPush_fault h; exact ⟨.push, rfl, .inl ⟨_, rfl⟩⟩
  case pop => obtain ⟨-, rfl⟩ := execPop_fault h; exact ⟨.pop, rfl, .inl ⟨_, rfl⟩⟩
  case shr => exact absurd h execShr_ne_fault
  case shl => exact absurd h execShl_ne_fault
  all_goals cases h

/-- Settles O37: case by case over the instruction, of which four can raise a fault. -/
theorem onlyMemoryInstructionsFaultInExecute : Obligations.OnlyMemoryInstructionsFaultInExecute :=
  fun _ _ _ h => exec_fault h

/-- Nothing of a faulting execute has been done (40_cycle.md rule R119). -/
theorem exec_fault_precise (h : exec i s = .fault f) : f.instrAddr = s.pc - 1 ∧ f.final = s := by
  obtain ⟨access, -, ⟨addr, rfl⟩ | ⟨-, port, -, rfl⟩⟩ := exec_fault h <;> exact ⟨rfl, rfl⟩

/-- If an execute is refused, it is a shift by a count that the setting refuses (30_encoding.md rule R92). -/
theorem exec_refused (h : exec i s = .refused r) : r = .shiftCountHigh ∧ s.params.shiftAmount = .refuseHigh := by
  have hshift {imm4 : BitVec 4} {u : State}
      (h : (if shiftRefused s.params imm4 then .refused .shiftCountHigh else .next u : Result) = .refused r) :
      r = .shiftCountHigh ∧ s.params.shiftAmount = .refuseHigh := by
    split at h
    · next hr => cases h; exact ⟨rfl, ((shiftRefused_iff _ _).1 hr).1⟩
    · cases h
  cases i
  case shr => exact hshift h
  case shl => exact hshift h
  case ldr => simp only [exec, execLdr] at h; split at h <;> cases h
  case str => simp only [exec, execStr] at h; split at h <;> cases h
  case push => simp only [exec, execPush] at h; split at h <;> cases h
  case pop => simp only [exec, execPop] at h; split at h <;> cases h
  all_goals cases h

/-! ### The registers (10_state.md rule R24) -/

theorem State.writeReg_keepsRegsBut (s : State) (rd : Reg) (v : Word) : KeepsRegsBut [rd] s (s.writeReg rd v) :=
  (s.storeZ_onlyRegsAndFlags rd v).1

theorem KeepsRegsBut.refl (written : List Reg) (s : State) : KeepsRegsBut written s s := fun _ _ => rfl

theorem State.jumpIf_keepsRegsBut (s : State) (taken : Bool) (offset : Int) :
    KeepsRegsBut [s.params.pcIndex] s (s.jumpIf taken offset) := by
  cases taken
  · exact KeepsRegsBut.refl _ s
  · exact s.writeReg_keepsRegsBut _ _

/-- A register write after the stack pointer's own, as POP makes it. -/
theorem State.writeReg_writeReg_keepsRegsBut (s : State) (q p : Reg) (v u : Word) :
    KeepsRegsBut [q, p] s ((s.writeReg q v).writeReg p u) := by
  intro r hr
  rw [List.mem_pair, not_or] at hr
  rw [State.readReg_writeReg, if_neg hr.2, State.readReg_writeReg, if_neg hr.1]

/-- Settles O40: one case per instruction, each with the register its composite update writes. -/
theorem instructionsWriteOnlyTheirRegisters : Obligations.InstructionsWriteOnlyTheirRegisters := by
  intro i s t h
  cases i
  case halt | cmp => cases h; exact KeepsRegsBut.refl _ s
  case jeq | jne | jlt | jge => cases h; exact s.jumpIf_keepsRegsBut _ _
  case ldr =>
    rcases execLdr_next h with ⟨a, -, rfl⟩ | ⟨-, rfl⟩ | ⟨-, rfl⟩
    · exact (s.mark a).writeReg_keepsRegsBut _ _
    · exact State.writeReg_keepsRegsBut _ _ _
    · exact State.writeReg_keepsRegsBut _ _ _
  case str => rcases execStr_next h with ⟨a, -, rfl⟩ | ⟨-, rfl⟩ | ⟨-, rfl⟩ <;> exact KeepsRegsBut.refl _ s
  case push => obtain ⟨-, rfl⟩ := execPush_next h; exact s.writeReg_keepsRegsBut _ _
  case pop => obtain ⟨-, rfl⟩ := execPop_next h; exact s.writeReg_writeReg_keepsRegsBut _ _ _ _
  case shr => obtain rfl := execShr_next h; exact s.writeReg_keepsRegsBut _ _
  case shl => obtain rfl := execShl_next h; exact s.writeReg_keepsRegsBut _ _
  all_goals cases h; exact s.writeReg_keepsRegsBut _ _

/-! ### Memory, the access bitmap, the console trace and the status (10_state.md rules R24, R30, R34; 46_halt.md rule R236) -/

theorem accessedCell_eq_some_iff {rm : Reg} {imm4 : BitVec 4} {a : Nat} :
    accessedCell s rm imm4 = some a ↔ placeOf s.params (s.accessAddress rm imm4) = .cell a := by
  unfold accessedCell
  split <;> simp [*]

/-- What the execute of `i` that leads from `s` to `t` does beside registers and flags. -/
structure ExecEffect (i : Instr) (s t : State) : Prop where
  /-- Only HALT ends the run. -/
  status : i ≠ .halt → t.status = s.status
  /-- Memory is as before, or the one cell the instruction stores to is written, and it is below N. -/
  mem : t.mem = s.mem ∨ ∃ a v, storedCell i s = some a ∧ a < s.params.memWords ∧ t.mem = s.mem.write a v
  /-- The bitmap is as before, or the bit of the one physical cell the instruction accesses is set. -/
  marked : (markedCell i s = none ∧ t.marked = s.marked) ∨
    ∃ a, markedCell i s = some a ∧ a < s.params.memWords ∧ t.marked = markBit s.marked a
  /-- The trace is as before, or one event is appended. -/
  trace : t.trace = s.trace ∨ ∃ e, t.trace = s.trace ++ [e]

/-- The effect of an instruction that keeps all four. -/
theorem ExecEffect.of_kept (hi : markedCell i s = none) (hs : i ≠ .halt → t.status = s.status) (hm : t.mem = s.mem)
    (hk : t.marked = s.marked) (ht : t.trace = s.trace) : ExecEffect i s t :=
  ⟨hs, .inl hm, .inl ⟨hi, hk⟩, .inl ht⟩

/-- A conditional jump changes registers only. -/
theorem State.jumpIf_eq (s : State) (taken : Bool) (offset : Int) :
    s.jumpIf taken offset = { s with regs := (s.jumpIf taken offset).regs } := by
  cases taken <;> rfl

theorem exec_effect (h : exec i s = .next t) : ExecEffect i s t := by
  cases i
  case ldr =>
    rcases execLdr_next h with ⟨a, ha, rfl⟩ | ⟨hp, rfl⟩ | ⟨hp, rfl⟩
    · obtain ⟨-, hlt, -⟩ := placeOf_cell ha
      exact ⟨fun _ => rfl, .inl rfl, .inr ⟨a, accessedCell_eq_some_iff.2 ha, hlt, rfl⟩, .inl rfl⟩
    · exact ⟨fun _ => rfl, .inl rfl, .inl ⟨by simp only [markedCell, accessedCell, hp], rfl⟩, .inr ⟨_, rfl⟩⟩
    · exact ⟨fun _ => rfl, .inl rfl, .inl ⟨by simp only [markedCell, accessedCell, hp], rfl⟩, .inr ⟨_, rfl⟩⟩
  case str =>
    rcases execStr_next h with ⟨a, ha, rfl⟩ | ⟨hp, rfl⟩ | ⟨hp, rfl⟩
    · have hcell := accessedCell_eq_some_iff.2 ha
      obtain ⟨-, hlt, -⟩ := placeOf_cell ha
      exact ⟨fun _ => rfl, .inr ⟨a, _, hcell, hlt, rfl⟩, .inr ⟨a, hcell, hlt, rfl⟩, .inl rfl⟩
    · exact ⟨fun _ => rfl, .inl rfl, .inl ⟨by simp only [markedCell, accessedCell, hp], rfl⟩, .inr ⟨_, rfl⟩⟩
    · exact ⟨fun _ => rfl, .inl rfl, .inl ⟨by simp only [markedCell, accessedCell, hp], rfl⟩, .inr ⟨_, rfl⟩⟩
  case push =>
    obtain ⟨hlt, rfl⟩ := execPush_next h
    exact ⟨fun _ => rfl, .inr ⟨_, _, rfl, hlt, rfl⟩, .inl ⟨rfl, rfl⟩, .inl rfl⟩
  case pop => obtain ⟨-, rfl⟩ := execPop_next h; exact .of_kept rfl (fun _ => rfl) rfl rfl rfl
  case shr => obtain rfl := execShr_next h; exact .of_kept rfl (fun _ => rfl) rfl rfl rfl
  case shl => obtain rfl := execShl_next h; exact .of_kept rfl (fun _ => rfl) rfl rfl rfl
  case jeq | jne | jlt | jge =>
    cases h
    rw [s.jumpIf_eq]
    exact .of_kept rfl (fun _ => rfl) rfl rfl rfl
  case halt => cases h; exact .of_kept rfl (fun hne => absurd rfl hne) rfl rfl rfl
  all_goals cases h; exact .of_kept rfl (fun _ => rfl) rfl rfl rfl

/-- Settles O41: the one write and the one mark of an execute leave every other cell and bit alone. -/
theorem onlyTheStoredCellAndTheMarkedBitChange : Obligations.OnlyTheStoredCellAndTheMarkedBitChange := by
  intro i s t h
  obtain ⟨-, hmem, hmarked, -⟩ := exec_effect h
  refine ⟨fun a ha => ?_, fun a ha => ?_, fun a ha => ?_⟩
  · rcases hmem with hm | ⟨b, v, hb, -, hm⟩
    · rw [State.readCell, hm, State.readCell]
    · have hne : a ≠ b := fun he => ha (he ▸ hb)
      rw [State.readCell, hm, Memory.read_write, if_neg hne, State.readCell]
  · rcases hmarked with ⟨-, hm⟩ | ⟨b, hb, -, hm⟩
    · rw [hm]
    · have hne : a ≠ b := fun he => ha (he ▸ hb)
      rw [hm, mem_markBit, or_iff_right hne]
  · rcases hmarked with ⟨hn, -⟩ | ⟨b, hb, -, hm⟩
    · rw [hn] at ha; cases ha
    · rw [hb] at ha; cases ha
      rw [hm, mem_markBit]
      exact .inl rfl

end Sys2Proof.Machine
end

section
/-! SUPPORT. The cycle (40_cycle.md): the state an instruction executes in, how a step faults and is refused; and the proofs
of O31, O34 to O36 and O38. -/

namespace Sys2Proof.Machine

variable {s t : State} {i : Instr} {f : Fault} {r : Refusal}

/-! ### The state an instruction executes in (rules R111 to R114) -/

@[simp] theorem State.fetch_params (s : State) : s.beginCycle.fetch.params = s.params := by rw [State.fetch_eq]

@[simp] theorem State.fetch_ir (s : State) : s.beginCycle.fetch.ir = s.readCell s.pc.toNat := by rw [State.fetch_eq]

@[simp] theorem State.fetch_status (s : State) : s.beginCycle.fetch.status = s.status := by rw [State.fetch_eq]

@[simp] theorem State.fetch_cycles (s : State) : s.beginCycle.fetch.cycles = s.cycles + 1 := by rw [State.fetch_eq]

theorem State.fetch_pc (s : State) : s.beginCycle.fetch.pc = s.pc + 1 := by simp [State.fetch]

/-- A pause is recorded exactly at a breakpoint, and by the beginning of the cycle. -/
theorem State.beginCycle_pauses (s : State) :
    s.beginCycle.pauses = s.pauses ++ (if s.pc ∈ s.params.breakpoints then [s.pc] else []) := by
  rw [State.beginCycle_eq]
  by_cases h : s.pc ∈ s.params.breakpoints
  · simp only [List.contains_eq_mem, h, decide_true, if_true]
  · simp only [List.contains_eq_mem, h, decide_false, Bool.false_eq_true, if_false, List.append_nil]

theorem State.fetch_pauses (s : State) : s.beginCycle.fetch.pauses = s.beginCycle.pauses := rfl

/-- What the first half of a cycle leaves alone. -/
theorem State.fetch_frame (s : State) :
    KeepsRegsBut [s.params.pcIndex] s s.beginCycle.fetch ∧ KeepsFlags s s.beginCycle.fetch ∧
      s.beginCycle.fetch.mem = s.mem ∧ s.beginCycle.fetch.marked = s.marked ∧ KeepsConsole s s.beginCycle.fetch := by
  rw [State.fetch_eq]
  exact ⟨s.writeReg_keepsRegsBut _ _, ⟨rfl, rfl⟩, rfl, rfl, ⟨rfl, rfl, rfl⟩⟩

/-- The frame of memory and bitmap for the same data. -/
theorem keepsMemory_of_mem_eq (h : t.mem = s.mem) : KeepsMemoryBut [] s t := fun a _ => congrArg (Memory.read · a) h

theorem keepsMarks_of_marked_eq (h : t.marked = s.marked) : KeepsMarksBut [] s t := fun a _ => by rw [h]

/-! ### The instruction of the cycle (rules R115 to R118) -/

theorem step_of_executed (hs : s.status = .running) (hb : s.pc.toNat < s.params.memWords)
    (hd : decode s.params.opcodeMap (s.readCell s.pc.toNat) = .ok i) (hr : pcRefused s.params i = false) :
    step s = exec i s.beginCycle.fetch := by
  rw [step_of_decode hs hb hd, if_neg (by simp [hr])]

/-- Settles O31: the state an instruction executes in, written out. -/
theorem stepRunsTheDecodedInstruction : Obligations.StepRunsTheDecodedInstruction := by
  intro s i hs hb hd hr
  rw [step_of_executed hs hb hd hr, State.fetch_eq]
  simp only [List.contains_eq_mem, decide_eq_true_eq]

theorem pcRefused_iff (p : Params) (i : Instr) :
    pcRefused p i = true ↔ p.r15Access = .refuse ∧ p.pcIndex ∈ usedRegs i := by
  unfold pcRefused
  split <;> simp [*]

/-- An instruction without register fields is never refused for one. -/
theorem pcRefused_of_usedRegs_eq_nil (h : usedRegs i = []) (p : Params) : pcRefused p i = false := by
  rw [← Bool.not_eq_true, pcRefused_iff, h]
  exact fun hused => absurd hused.2 List.not_mem_nil

/-- If a step is refused, its word decodes to an instruction that the cycle or the execute refuses. -/
theorem step_refused (h : step s = .refused r) :
    ∃ i, (pcRefused s.params i = true ∧ r = .pcOperand) ∨ exec i s.beginCycle.fetch = .refused r := by
  cases hs : s.status with
  | halted => simp [step, hs] at h
  | running =>
    rcases Nat.lt_or_ge s.pc.toNat s.params.memWords with hb | hb
    · cases hd : decode s.params.opcodeMap (s.readCell s.pc.toNat) with
      | error e =>
        obtain ⟨-, rfl⟩ := decode_eq_error_iff.1 hd
        rw [step_of_fetchDecode_fault hs (fetchDecode_of_error hb hd)] at h
        cases h
      | ok i =>
        rw [step_of_decode hs hb hd] at h
        split at h
        · next hr => cases h; exact ⟨i, .inl ⟨hr, rfl⟩⟩
        · exact ⟨i, .inr h⟩
    · rw [step_of_fetchDecode_fault hs (fetchDecode_of_outside hb)] at h
      cases h

/-- Settles O38: the cycle refuses for the program counter and the execute for the count, each under its setting only. -/
theorem stepsAreRefusedOnlyUnderRefusingSettings : Obligations.StepsAreRefusedOnlyUnderRefusingSettings := by
  intro s r h
  obtain ⟨i, ⟨hr, rfl⟩ | hexec⟩ := step_refused h
  · exact .inl ⟨rfl, ((pcRefused_iff _ _).1 hr).1⟩
  · obtain ⟨hcount, hset⟩ := exec_refused hexec
    exact .inr ⟨hcount, by rwa [State.fetch_params] at hset⟩

/-- Settles O34: under `refuse` the cycle tests the register fields, and by O38 nothing else refuses for the register. -/
theorem pcOperandsAreRefusedOnlyWhenSoSet : Obligations.PcOperandsAreRefusedOnlyWhenSoSet := by
  refine ⟨fun s i hs hb hd hset hused => ?_, fun s hset h => ?_⟩
  · rw [step_of_decode hs hb hd, if_pos ((pcRefused_iff _ _).2 ⟨hset, hused⟩)]
  · rcases stepsAreRefusedOnlyUnderRefusingSettings s _ h with ⟨-, hr⟩ | ⟨hr, -⟩
    · rw [hset] at hr; cases hr
    · cases hr

/-! ### Faults (rule R119, 60_exceptions.md rules R255, R257) -/

/-- A fault of a step records the address fetched from and carries the state before the fetch, if that was outside memory, and
otherwise the state the instruction executes in. -/
theorem step_fault_precise (h : step s = .fault f) :
    f.instrAddr = s.pc ∧ ((s.params.memWords ≤ s.pc.toNat ∧ f.final = s.beginCycle) ∨
      (s.pc.toNat < s.params.memWords ∧ f.final = s.beginCycle.fetch)) := by
  obtain ⟨-, ⟨hb, rfl⟩ | ⟨hb, rfl⟩ | ⟨hb, i, -, hexec⟩⟩ := step_fault h
  · exact ⟨rfl, .inl ⟨hb, rfl⟩⟩
  · exact ⟨rfl, .inr ⟨hb, rfl⟩⟩
  · obtain ⟨haddr, hfinal⟩ := exec_fault_precise hexec
    refine ⟨?_, .inr ⟨hb, hfinal⟩⟩
    rw [haddr, State.fetch_pc, BitVec.add_sub_cancel]

/-- Settles O36: the frames of the two states a fault of a step can carry. -/
theorem faultsArePrecise : Obligations.FaultsArePrecise := by
  refine ⟨fun i s f h => (exec_fault_precise h).2, fun s f h => ?_⟩
  obtain ⟨haddr, ⟨hb, hfinal⟩ | ⟨hb, hfinal⟩⟩ := step_fault_precise h
  · obtain ⟨hregs, hflags, hmem, hmarked, hconsole, -⟩ := s.beginCycle_frame
    rw [hfinal]
    exact ⟨haddr, fun r _ => hregs r List.not_mem_nil, hflags, hmem, hmarked, hconsole, fun _ => by simp, fun h => by omega⟩
  · obtain ⟨hregs, hflags, hmem, hmarked, hconsole⟩ := s.fetch_frame
    rw [hfinal]
    exact ⟨haddr, hregs, hflags, hmem, hmarked, hconsole, fun h => by omega, fun _ => s.fetch_pc⟩

/-- Settles O35: no execute changes the count or the pauses, and both are recorded before the fetch. -/
theorem everyCycleCountsOneAndPausesAtBreakpoints : Obligations.EveryCycleCountsOneAndPausesAtBreakpoints := by
  intro s hs
  have hcycles : s.beginCycle.cycles = s.cycles + 1 := by rw [State.beginCycle_eq]
  refine ⟨fun t h => ?_, fun f h => ?_⟩
  · rcases step_next h with ⟨hhalted, -⟩ | ⟨-, -, i, -, -, hexec⟩
    · rw [hs] at hhalted; cases hhalted
    · obtain ⟨-, hp, hc, -⟩ := exec_keeps_engine hexec
      rw [hp, hc, State.fetch_cycles, State.fetch_pauses, State.beginCycle_pauses]
      exact ⟨rfl, rfl⟩
  · obtain ⟨-, ⟨-, hfinal⟩ | ⟨-, hfinal⟩⟩ := step_fault_precise h
    · rw [hfinal]; exact ⟨hcycles, s.beginCycle_pauses⟩
    · rw [hfinal, State.fetch_pauses]; exact ⟨s.fetch_cycles, s.beginCycle_pauses⟩

end Sys2Proof.Machine
end

section
/-! SUPPORT. HALT (46_halt.md; 40_cycle.md rule R116), and the proofs of O28 to O30. -/

namespace Sys2Proof.Machine

variable {s t : State} {i : Instr} {m : OpcodeMap} {w : Word}

/-- Only the literal all-ones word is HALT, for every kind builds an instruction of its own kind (30_encoding.md rule R84). -/
theorem eq_haltWord_of_decode (h : decode m w = .ok .halt) : w = haltWord := by
  by_contra hw
  cases hk : m.kindOf (unpack w).op with
  | none => simp only [decode, if_neg hw, hk] at h; cases h
  | some k =>
    rw [decode_of_kindOf hw hk] at h
    have hkind := build_kind k (unpack w)
    rw [Except.ok.inj h] at hkind
    cases hkind

theorem cycleEnd_eq_halted_iff : cycleEnd s = .halted t ↔ step s = .next t ∧ t.status = .halted := by
  unfold cycleEnd
  constructor
  · intro h
    split at h
    · split at h
      · cases h
      · next hs => cases h; exact ⟨by assumption, hs⟩
    · cases h
    · cases h
  · rintro ⟨h, hs⟩
    simp only [h, hs]

/-- Settles O28: HALT is never refused, and the state it ends in is the one it executes in but for the status. -/
theorem haltWordEndsTheRun : Obligations.HaltWordEndsTheRun := by
  refine ⟨fun s => ⟨s.halt, rfl, rfl, KeepsRegsBut.refl _ s, ⟨rfl, rfl⟩, fun _ _ => rfl, fun _ _ => Iff.rfl,
    ⟨rfl, rfl, rfl⟩, rfl, rfl, rfl, rfl⟩, fun s hs hb hw => ?_⟩
  have hd : decode s.params.opcodeMap (s.readCell s.pc.toNat) = .ok .halt := by rw [hw]; exact decode_haltWord _
  have hstep : step s = .next s.beginCycle.fetch.halt := step_of_executed hs hb hd (pcRefused_of_usedRegs_eq_nil rfl _)
  obtain ⟨hregs, hflags, hmem, hmarked, hconsole⟩ := s.fetch_frame
  exact ⟨_, cycleEnd_eq_halted_iff.2 ⟨hstep, rfl⟩, s.fetch_pc, hregs, hflags, keepsMemory_of_mem_eq hmem,
    keepsMarks_of_marked_eq hmarked, hconsole⟩

theorem step_of_halted (hs : s.status = .halted) : step s = .next s := by simp only [step, hs]

/-- Settles O29: by induction on the number of steps. -/
theorem nothingRunsAfterHalt : Obligations.NothingRunsAfterHalt := by
  intro s hs k
  induction k with
  | zero => rfl
  | succ k ih => rw [run_succ_of_next k (step_of_halted hs), ih]

/-- Settles O30: no execute but HALT's changes the status, and HALT has one word. -/
theorem onlyTheHaltWordEndsARun : Obligations.OnlyTheHaltWordEndsARun := by
  intro s t hs h
  obtain ⟨hstep, hhalted⟩ := cycleEnd_eq_halted_iff.1 h
  rcases step_next hstep with ⟨hs', -⟩ | ⟨-, hb, i, hd, -, hexec⟩
  · rw [hs] at hs'; cases hs'
  · have hi : i = .halt := by
      by_contra hne
      rw [(exec_effect hexec).status hne, State.fetch_status, hs] at hhalted
      cases hhalted
    subst hi
    exact ⟨hb, eq_haltWord_of_decode hd⟩

end Sys2Proof.Machine
end

section
/-! SUPPORT. What every step keeps: well-formedness (10_state.md rules R30, R37), the launch parameters (70_reset_and_hazards.md
rule R283), the trace (10_state.md rule R34); and the proofs of O42, O43, O45 and O46. -/

namespace Sys2Proof.Machine

variable {s t : State} {i : Instr}

/-- Well-formedness is a property of memory, bitmap and launch parameters alone. -/
theorem State.wf_of_eq (hs : s.wf) (hm : t.mem = s.mem) (hk : t.marked = s.marked) (hp : t.params = s.params) : t.wf := by
  unfold State.wf
  rwa [hm, hk, hp]

theorem State.wf_beginCycle (hs : s.wf) : s.beginCycle.wf := by
  obtain ⟨-, -, hmem, hmarked, -⟩ := s.beginCycle_frame
  exact State.wf_of_eq hs hmem hmarked s.beginCycle_params

theorem State.wf_fetch (hs : s.wf) : s.beginCycle.fetch.wf := by
  obtain ⟨-, -, hmem, hmarked, -⟩ := s.fetch_frame
  exact State.wf_of_eq hs hmem hmarked s.fetch_params

/-- A write below N keeps every listed cell below N. -/
theorem Memory.below_write {m : Memory} {n a : Nat} (h : ∀ cell ∈ m, cell.1 < n) (ha : a < n) (v : Word) :
    ∀ cell ∈ m.write a v, cell.1 < n := by
  intro cell hc
  rcases Memory.mem_write hc with rfl | hc
  · exact ha
  · exact h cell hc

theorem below_markBit {bits : List Nat} {n a : Nat} (h : ∀ b ∈ bits, b < n) (ha : a < n) : ∀ b ∈ markBit bits a, b < n := by
  intro b hb
  rcases (mem_markBit bits a b).1 hb with rfl | hb
  · exact ha
  · exact h b hb

theorem exec_keeps_wf (hs : s.wf) (h : exec i s = .next t) : t.wf := by
  obtain ⟨hmem, hbelow, hrising, hmarks, hparams⟩ := hs
  obtain ⟨-, hm, hk, -⟩ := exec_effect h
  obtain ⟨-, -, -, hp⟩ := exec_keeps_engine h
  have hwf : t.mem.wf ∧ ∀ cell ∈ t.mem, cell.1 < s.params.memWords := by
    rcases hm with hm | ⟨a, v, -, ha, hm⟩ <;> rw [hm]
    · exact ⟨hmem, hbelow⟩
    · exact ⟨Memory.wf_write hmem a v, Memory.below_write hbelow ha v⟩
  have hbits : t.marked.Pairwise (· < ·) ∧ ∀ a ∈ t.marked, a < s.params.memWords := by
    rcases hk with ⟨-, hk⟩ | ⟨a, -, ha, hk⟩ <;> rw [hk]
    · exact ⟨hrising, hmarks⟩
    · exact ⟨rising_markBit hrising a, below_markBit hmarks ha⟩
  rw [State.wf, hp]
  exact ⟨hwf.1, hwf.2, hbits.1, hbits.2, hparams⟩

/-- Settles O45: the first half of a cycle touches neither memory nor bitmap, and an execute writes and marks below N only. -/
theorem stepKeepsStatesWellFormed : Obligations.StepKeepsStatesWellFormed := by
  intro s hs
  refine ⟨fun t h => ?_, fun f h => ?_⟩
  · rcases step_next h with ⟨-, rfl⟩ | ⟨-, -, i, -, -, hexec⟩
    · exact hs
    · exact exec_keeps_wf (State.wf_fetch hs) hexec
  · obtain ⟨-, ⟨-, hfinal⟩ | ⟨-, hfinal⟩⟩ := step_fault_precise h <;> rw [hfinal]
    · exact State.wf_beginCycle hs
    · exact State.wf_fetch hs

/-- A reset state lists no cell and no bit, so it is well formed as soon as its parameters are. -/
theorem State.wf_resetWith {p : Params} (h : p.wf = true) : (State.resetWith p).wf :=
  ⟨Memory.wf_nil, fun _ hc => absurd hc List.not_mem_nil, .nil, fun _ ha => absurd ha List.not_mem_nil, h⟩

/-- Settles O46: the default parameters are as the spec admits them. -/
theorem resetIsWellFormed : Obligations.ResetIsWellFormed := State.wf_resetWith (by decide)

/-- Settles O42: the first half of a cycle leaves the trace alone. -/
theorem theConsoleTraceOnlyGrows : Obligations.TheConsoleTraceOnlyGrows := by
  intro s t h
  rcases step_next h with ⟨-, rfl⟩ | ⟨-, -, i, -, -, hexec⟩
  · exact ⟨[], (List.append_nil _).symm, Nat.zero_le _⟩
  · obtain ⟨-, -, -, -, htrace, -⟩ := s.fetch_frame
    rcases (exec_effect hexec).trace with ht | ⟨e, ht⟩ <;> rw [ht, htrace]
    · exact ⟨[], (List.append_nil _).symm, Nat.zero_le _⟩
    · exact ⟨[e], rfl, le_rfl⟩

theorem step_keeps_params (h : step s = .next t) : t.params = s.params := by
  rcases step_next h with ⟨-, rfl⟩ | ⟨-, -, i, -, -, hexec⟩
  · rfl
  · obtain ⟨-, -, -, hp⟩ := exec_keeps_engine hexec
    rw [hp, State.fetch_params]

/-- The first step of a run that goes through goes through. -/
theorem run_succ_next {k : Nat} (h : Host.Core.run Sys2Proof.core (k + 1) s = .next t) :
    ∃ u, step s = .next u ∧ Host.Core.run Sys2Proof.core k u = .next t := by
  cases hstep : step s with
  | next u => rw [run_succ_of_next k hstep] at h; exact ⟨u, rfl, h⟩
  | fault f =>
    have hcore : Sys2Proof.core.step s = .fault f := hstep
    simp only [Host.Core.run, hcore] at h
    cases h
  | refused r =>
    have hcore : Sys2Proof.core.step s = .refused r := hstep
    simp only [Host.Core.run, hcore] at h
    cases h

/-- Settles O43: by induction on the number of steps, from every state. -/
theorem theParametersNeverChange : Obligations.TheParametersNeverChange := by
  intro k
  induction k with
  | zero => intro s t h; cases h; rfl
  | succ k ih =>
    intro s t h
    obtain ⟨u, hstep, hrun⟩ := run_succ_next h
    rw [ih u t hrun, step_keeps_params hstep]

end Sys2Proof.Machine
end

section
/-! SUPPORT. What is only observed (10_state.md rules R30, R31, R33, R34; 60_exceptions.md rule R265), and the proof of O44:
every operation of the cycle commutes with erasing it. -/

namespace Sys2Proof.Machine

variable {s t : State} {i : Instr}

/-- The beginning of the cycle and the fetch read nothing of what is erased but to record it. -/
theorem State.unobserved_beginCycle (s : State) : s.unobserved.beginCycle.unobserved = s.beginCycle.unobserved := by
  rw [State.beginCycle_eq, State.beginCycle_eq]
  rfl

theorem State.unobserved_fetch (s : State) : s.unobserved.beginCycle.fetch.unobserved = s.beginCycle.fetch.unobserved := by
  rw [State.fetch_eq, State.fetch_eq]
  rfl

theorem State.placeOf_unobserved (s : State) (rm : Reg) (imm4 : BitVec 4) :
    placeOf s.unobserved.params (s.unobserved.accessAddress rm imm4) = placeOf s.params (s.accessAddress rm imm4) := rfl

theorem State.unobserved_jumpIf (s : State) (taken : Bool) (offset : Int) :
    (s.unobserved.jumpIf taken offset).unobserved = (s.jumpIf taken offset).unobserved := by
  cases taken <;> rfl

theorem exec_unobserved (i : Instr) (s : State) :
    unobservedResult (exec i s.unobserved) = unobservedResult (exec i s) := by
  cases i
  case ldr rd rm imm4 =>
    simp only [exec, execLdr, s.placeOf_unobserved]
    cases placeOf s.params (s.accessAddress rm imm4) <;> rfl
  case str rs rm imm4 =>
    simp only [exec, execStr, s.placeOf_unobserved]
    cases placeOf s.params (s.accessAddress rm imm4) <;> rfl
  case push rs _ =>
    have hm : s.unobserved.inMemory s.unobserved.pushAddress.toNat = s.inMemory s.pushAddress.toNat := rfl
    simp only [exec, execPush, hm]
    split <;> rfl
  case pop rd _ =>
    have hm : s.unobserved.inMemory s.unobserved.sp.toNat = s.inMemory s.sp.toNat := rfl
    simp only [exec, execPop, hm]
    split <;> rfl
  case shr rd rm imm4 =>
    have hr : shiftRefused s.unobserved.params imm4 = shiftRefused s.params imm4 := rfl
    simp only [exec, execShr, hr]
    split <;> rfl
  case shl rd rm imm4 =>
    have hr : shiftRefused s.unobserved.params imm4 = shiftRefused s.params imm4 := rfl
    simp only [exec, execShl, hr]
    split <;> rfl
  case jeq | jne | jlt | jge => exact congrArg Host.Outcome.next (s.unobserved_jumpIf _ _)
  all_goals rfl

/-- Settles O44: both steps take the same way through the cycle, and end in states that differ in observations only. -/
theorem observationsInfluenceNothing : Obligations.ObservationsInfluenceNothing := by
  intro s
  cases hs : s.status with
  | halted => rw [step_of_halted hs, step_of_halted (s := s.unobserved) hs]; rfl
  | running =>
    rcases Nat.lt_or_ge s.pc.toNat s.params.memWords with hb | hb
    · cases hd : decode s.params.opcodeMap (s.readCell s.pc.toNat) with
      | error e =>
        obtain ⟨-, rfl⟩ := decode_eq_error_iff.1 hd
        rw [step_of_fetchDecode_fault hs (fetchDecode_of_error hb hd),
          step_of_fetchDecode_fault (s := s.unobserved) hs (fetchDecode_of_error (s := s.unobserved) hb hd)]
        exact congrArg (fun u => Host.Outcome.fault (Fault.unknownInstruction s.pc _ u)) s.unobserved_fetch.symm
      | ok i =>
        have hr : pcRefused s.unobserved.params i = pcRefused s.params i := rfl
        rw [step_of_decode hs hb hd, step_of_decode (s := s.unobserved) hs hb hd, hr]
        split
        · rfl
        · rw [← exec_unobserved, ← s.unobserved_fetch, exec_unobserved]
    · rw [step_of_fetchDecode_fault hs (fetchDecode_of_outside hb),
        step_of_fetchDecode_fault (s := s.unobserved) hs (fetchDecode_of_outside (s := s.unobserved) hb)]
      exact congrArg (fun u => Host.Outcome.fault (Fault.memoryViolation .fetch s.pc s.pc.toNat u))
        s.unobserved_beginCycle.symm

end Sys2Proof.Machine
end

section
/-! SUPPORT. Loads and stores (44_memory_access.md rules R200 to R203; 20_memory.md rules R57 to R71), and the proofs of O17 to
O23. -/

namespace Sys2Proof.Machine

variable {s t : State} {rd rs rm : Reg} {imm4 : BitVec 4} {ea : Int} {a : Nat}

/-! ### Where LDR and STR find their place -/

theorem placeOf_accessAddress (h : AddressIs s rm imm4 ea) :
    placeOf s.params (s.accessAddress rm imm4) = placeOf s.params ea := by
  rw [(addressIs_iff s rm imm4 ea).1 h]

/-! ### The meanings at each place -/

theorem execLdr_charIn (h : placeOf s.params (s.accessAddress rm imm4) = .charIn) :
    execLdr rd rm imm4 s = .next (s.input .charIn rd) := by simp only [execLdr, h]

theorem execLdr_intIn (h : placeOf s.params (s.accessAddress rm imm4) = .intIn) :
    execLdr rd rm imm4 s = .next (s.input .intIn rd) := by simp only [execLdr, h]

theorem execLdr_charOut (h : placeOf s.params (s.accessAddress rm imm4) = .charOut) :
    execLdr rd rm imm4 s = .fault (.ioDirection .load (s.pc - 1) s.params.ioCharOut s) := by simp only [execLdr, h]; rfl

theorem execLdr_intOut (h : placeOf s.params (s.accessAddress rm imm4) = .intOut) :
    execLdr rd rm imm4 s = .fault (.ioDirection .load (s.pc - 1) s.params.ioIntOut s) := by simp only [execLdr, h]; rfl

theorem execLdr_outside (h : placeOf s.params (s.accessAddress rm imm4) = .outside) :
    execLdr rd rm imm4 s = .fault (.memoryViolation .load (s.pc - 1) (s.accessAddress rm imm4) s) := by
  simp only [execLdr, h]; rfl

theorem execStr_charOut (h : placeOf s.params (s.accessAddress rm imm4) = .charOut) :
    execStr rs rm imm4 s = .next (s.emit (.charOut (s.readReg rs))) := by simp only [execStr, h]

theorem execStr_intOut (h : placeOf s.params (s.accessAddress rm imm4) = .intOut) :
    execStr rs rm imm4 s = .next (s.emit (.intOut (s.readReg rs))) := by simp only [execStr, h]

theorem execStr_charIn (h : placeOf s.params (s.accessAddress rm imm4) = .charIn) :
    execStr rs rm imm4 s = .fault (.ioDirection .store (s.pc - 1) s.params.ioCharIn s) := by simp only [execStr, h]; rfl

theorem execStr_intIn (h : placeOf s.params (s.accessAddress rm imm4) = .intIn) :
    execStr rs rm imm4 s = .fault (.ioDirection .store (s.pc - 1) s.params.ioIntIn s) := by simp only [execStr, h]; rfl

theorem execStr_outside (h : placeOf s.params (s.accessAddress rm imm4) = .outside) :
    execStr rs rm imm4 s = .fault (.memoryViolation .store (s.pc - 1) (s.accessAddress rm imm4) s) := by
  simp only [execStr, h]; rfl

/-! ### Frames -/

theorem State.mark_keepsMarksBut (s : State) (a : Nat) : KeepsMarksBut [a] s (s.mark a) := by
  intro b hb
  rw [State.mark_marked, mem_markBit, or_iff_right (mt List.mem_singleton.2 hb)]

theorem State.mem_marked_mark (s : State) (a : Nat) : a ∈ (s.mark a).marked := (mem_markBit _ _ _).2 (.inl rfl)

theorem State.writeCell_keepsMemoryBut (s : State) (a : Nat) (v : Word) : KeepsMemoryBut [a] s (s.writeCell a v) := by
  intro b hb
  rw [State.readCell_writeCell, if_neg (mt List.mem_singleton.2 hb)]

theorem State.readCell_writeCell_self (s : State) (a : Nat) (v : Word) : (s.writeCell a v).readCell a = v := by simp

theorem State.readReg_writeReg_self (s : State) (r : Reg) (v : Word) : (s.writeReg r v).readReg r = v := by simp

/-! ### Physical cells -/

/-- Settles O17: the cell is read, marked and written to Rd. -/
theorem ldrLoadsThePhysicalCell : Obligations.LdrLoadsThePhysicalCell := by
  intro rd rm imm4 s a haddr hcell
  have hp := (placeOf_accessAddress haddr).trans (placeOf_eq_cell hcell)
  exact ⟨_, execLdr_cell hp, State.readReg_writeReg_self _ _ _, s.mem_marked_mark a,
    (s.mark a).writeReg_keepsRegsBut rd _, ⟨rfl, rfl⟩, fun _ _ => rfl, s.mark_keepsMarksBut a,
    ⟨rfl, rfl, rfl⟩, ⟨rfl, rfl, rfl, rfl, rfl⟩⟩

/-- Settles O19: the cell is marked and written. -/
theorem strStoresToThePhysicalCell : Obligations.StrStoresToThePhysicalCell := by
  intro rs rm imm4 s a haddr hcell
  have hp := (placeOf_accessAddress haddr).trans (placeOf_eq_cell hcell)
  exact ⟨_, execStr_cell hp, State.readCell_writeCell_self _ _ _, s.mem_marked_mark a, KeepsRegsBut.refl _ s, ⟨rfl, rfl⟩,
    (s.mark a).writeCell_keepsMemoryBut a _, s.mark_keepsMarksBut a, ⟨rfl, rfl, rfl⟩, ⟨rfl, rfl, rfl, rfl, rfl⟩⟩

/-! ### Console ports -/

theorem State.nextAnswer_of_cons {w : Word} {rest : List Word} (h : s.answers = w :: rest) : s.nextAnswer = w := by
  rw [State.nextAnswer, h, List.headD_cons]

theorem State.nextAnswer_of_nil (h : s.answers = []) : s.nextAnswer = Config.hostAnswer s.draws := by
  rw [State.nextAnswer, h, List.headD_nil]

/-- Settles O18: one case for each input port, which differ in the event only. -/
theorem ldrFromAnInputPortTakesTheHostsAnswer : Obligations.LdrFromAnInputPortTakesTheHostsAnswer := by
  intro rd rm imm4 s port hwf haddr hport
  have hp := placeOf_accessAddress haddr
  obtain ⟨hcharIn, hintIn, -⟩ := placeOf_port hwf
  obtain ⟨-, hne, -⟩ := ports_distinct hwf
  have hregs (event : Word → IoEvent) : KeepsRegsBut [rd] s (s.input event rd) :=
    State.writeReg_keepsRegsBut (s.takeAnswer.emit (event s.nextAnswer)) rd _
  rcases hport with rfl | rfl
  · exact ⟨_, s.nextAnswer, execLdr_charIn (hp.trans hcharIn), State.readReg_writeReg_self _ _ _,
      fun _ _ h => State.nextAnswer_of_cons h, State.nextAnswer_of_nil, fun _ => rfl, fun h => absurd h hne, rfl, rfl,
      hregs _, ⟨rfl, rfl⟩, fun _ _ => rfl, fun _ _ => Iff.rfl, ⟨rfl, rfl, rfl, rfl, rfl⟩⟩
  · exact ⟨_, s.nextAnswer, execLdr_intIn (hp.trans hintIn), State.readReg_writeReg_self _ _ _,
      fun _ _ h => State.nextAnswer_of_cons h, State.nextAnswer_of_nil, fun h => absurd h.symm hne, fun _ => rfl, rfl, rfl,
      hregs _, ⟨rfl, rfl⟩, fun _ _ => rfl, fun _ _ => Iff.rfl, ⟨rfl, rfl, rfl, rfl, rfl⟩⟩

/-- Settles O20: one case for each output port, which differ in the event only. -/
theorem strToAnOutputPortAppendsTheEvent : Obligations.StrToAnOutputPortAppendsTheEvent := by
  intro rs rm imm4 s port hwf haddr hport
  have hp := placeOf_accessAddress haddr
  obtain ⟨-, -, hcharOut, hintOut⟩ := placeOf_port hwf
  obtain ⟨-, -, -, -, hne, -⟩ := ports_distinct hwf
  rcases hport with rfl | rfl
  · exact ⟨_, execStr_charOut (hp.trans hcharOut), fun _ => rfl, fun h => absurd h hne, rfl, rfl, KeepsRegsBut.refl _ s,
      ⟨rfl, rfl⟩, fun _ _ => rfl, fun _ _ => Iff.rfl, ⟨rfl, rfl, rfl, rfl, rfl⟩⟩
  · exact ⟨_, execStr_intOut (hp.trans hintOut), fun h => absurd h.symm hne, fun _ => rfl, rfl, rfl, KeepsRegsBut.refl _ s,
      ⟨rfl, rfl⟩, fun _ _ => rfl, fun _ _ => Iff.rfl, ⟨rfl, rfl, rfl, rfl, rfl⟩⟩

/-- Settles O21: the place of the address decides, and each of the four ports is its own place. -/
theorem loadsAndStoresFaultAsTheTablesSay : Obligations.LoadsAndStoresFaultAsTheTablesSay := by
  intro r rm imm4 s ea haddr
  have hp := placeOf_accessAddress haddr
  refine ⟨fun hout => ?_, fun hwf port hea => ⟨fun hport => ?_, fun hport => ?_⟩⟩
  · have hp := hp.trans (placeOf_eq_outside hout)
    rw [← (addressIs_iff s rm imm4 ea).1 haddr]
    exact ⟨execLdr_outside hp, execStr_outside hp⟩
  · obtain ⟨-, -, hcharOut, hintOut⟩ := placeOf_port hwf
    rw [hea] at hp
    rcases hport with rfl | rfl
    · exact execLdr_charOut (hp.trans hcharOut)
    · exact execLdr_intOut (hp.trans hintOut)
  · obtain ⟨hcharIn, hintIn, -⟩ := placeOf_port hwf
    rw [hea] at hp
    rcases hport with rfl | rfl
    · exact execStr_charIn (hp.trans hcharIn)
    · exact execStr_intIn (hp.trans hintIn)

/-! ### A store and what reads its cell -/

/-- A store to a physical cell that goes through is the write of that cell. -/
theorem execStr_of_storedCell (h : exec (.str rs rm imm4) s = .next t) (hc : storedCell (.str rs rm imm4) s = some a) :
    placeOf s.params a = .cell a ∧ t = (s.mark a).writeCell a (s.readReg rs) := by
  have hp := accessedCell_eq_some_iff.1 hc
  obtain ⟨hea, -⟩ := placeOf_cell hp
  refine ⟨by rwa [hea] at hp, ?_⟩
  rw [show exec (.str rs rm imm4) s = _ from execStr_cell hp] at h
  cases h
  rfl

/-- Settles O22: the launch parameters are the same at the load, so its address is the stored cell's. -/
theorem loadAfterStoreReturnsTheStoredWord : Obligations.LoadAfterStoreReturnsTheStoredWord := by
  intro rs rm rd rm' imm4 imm4' s t a hstore hcell haddr
  obtain ⟨hp, rfl⟩ := execStr_of_storedCell hstore hcell
  refine ⟨_, execLdr_cell ((placeOf_accessAddress haddr).trans hp), ?_⟩
  rw [State.readReg_writeReg_self, State.readCell_writeCell_self]

/-- Settles O23: the store leaves the program counter and the parameters, so the next cycle fetches the stored word. -/
theorem storeIsSeenByTheNextFetch : Obligations.StoreIsSeenByTheNextFetch := by
  intro rs rm imm4 s t i hs hstore hcell hd hr
  obtain ⟨hp, rfl⟩ := execStr_of_storedCell hstore hcell
  obtain ⟨-, hb, -⟩ := placeOf_cell hp
  let t := (s.mark s.pc.toNat).writeCell s.pc.toNat (s.readReg rs)
  have hread : t.readCell s.pc.toNat = s.readReg rs := State.readCell_writeCell_self _ _ _
  have hmemory : KeepsMemoryBut [s.pc.toNat] s t := (s.mark s.pc.toNat).writeCell_keepsMemoryBut _ _
  obtain ⟨hregs, hflags, hmem, -, hconsole⟩ := t.fetch_frame
  have hcells : ∀ b, t.beginCycle.fetch.readCell b = t.readCell b := fun b => keepsMemory_of_mem_eq hmem b List.not_mem_nil
  refine ⟨t.beginCycle.fetch, t.fetch_ir.trans hread, t.fetch_pc, (hcells _).trans hread, hregs, hflags,
    fun b hb => (hcells b).trans (hmemory b hb), hconsole, ?_⟩
  exact step_of_executed (s := t) hs hb ((congrArg _ hread).trans hd) hr

end Sys2Proof.Machine
end

section
/-! SUPPORT. The stack (45_stack.md rules R220 to R223), and the proofs of O24 to O27. -/

namespace Sys2Proof.Machine

variable {s t : State} {rd rs : Reg} {x y : BitVec 8}

/-! ### The addresses -/

theorem State.toNat_pushAddress (s : State) : s.pushAddress.toNat = (s.sp.toNat + 0xFFFF) % 65536 := by
  rw [State.pushAddress, BitVec.toNat_sub, Nat.add_comm]
  rfl

/-! ### The meanings in memory and outside -/

theorem exec_push_of_lt (h : s.pushAddress.toNat < s.params.memWords) :
    exec (.push rs x) s =
      .next ((s.setSp s.pushAddress).writeCell s.pushAddress.toNat ((s.setSp s.pushAddress).readReg rs)) :=
  if_pos ((s.inMemory_iff _).2 h)

theorem exec_push_of_le (h : s.params.memWords ≤ s.pushAddress.toNat) :
    exec (.push rs x) s = .fault (.memoryViolation .push (s.pc - 1) s.pushAddress.toNat s) :=
  if_neg (mt (s.inMemory_iff _).1 (Nat.not_lt.2 h))

theorem exec_pop_of_lt (h : s.sp.toNat < s.params.memWords) :
    exec (.pop rd y) s = .next ((s.writeReg rd (s.readCell s.sp.toNat)).setSp
      ((s.writeReg rd (s.readCell s.sp.toNat)).sp + 1)) :=
  if_pos ((s.inMemory_iff _).2 h)

theorem exec_pop_of_le (h : s.params.memWords ≤ s.sp.toNat) :
    exec (.pop rd y) s = .fault (.memoryViolation .pop (s.pc - 1) s.sp.toNat s) :=
  if_neg (mt (s.inMemory_iff _).1 (Nat.not_lt.2 h))

/-- Settles O26: the bound check decides between the fault and a next state. -/
theorem stackAccessesOutsideMemoryFault : Obligations.StackAccessesOutsideMemoryFault := by
  intro r ignored s
  rw [← s.toNat_pushAddress]
  exact ⟨⟨exec_push_of_le, fun h => (execPush_fault h).1⟩, ⟨exec_pop_of_le, fun h => (execPop_fault h).1⟩⟩

/-! ### PUSH -/

theorem State.sp_setSp (s : State) (v : Word) : (s.setSp v).sp = v := by simp

/-- The register PUSH stores, read after the decrement (decision D25). -/
theorem State.readReg_setSp (s : State) (v : Word) (r : Reg) :
    (s.setSp v).readReg r = if r = s.params.spIndex then v else s.readReg r :=
  s.readReg_writeReg _ _ _

/-- Settles O24: the cell written is the one at the new stack pointer. -/
theorem pushStoresAtTheDecrementedStackPointer : Obligations.PushStoresAtTheDecrementedStackPointer := by
  intro rs ignored s h
  rw [← s.toNat_pushAddress] at h ⊢
  refine ⟨_, exec_push_of_lt h, ?_⟩
  rw [show ∀ a v, ((s.setSp s.pushAddress).writeCell a v).sp = s.pushAddress from fun _ _ => s.sp_setSp _]
  refine ⟨rfl, rfl, fun hne => ?_, fun he => ?_, s.writeReg_keepsRegsBut _ _, ⟨rfl, rfl⟩,
    (s.setSp s.pushAddress).writeCell_keepsMemoryBut _ _, fun _ _ => Iff.rfl, ⟨rfl, rfl, rfl⟩, ⟨rfl, rfl, rfl, rfl, rfl⟩⟩
  · rw [State.readCell_writeCell_self, State.readReg_setSp, if_neg hne]
  · rw [State.readCell_writeCell_self, State.readReg_setSp, if_pos he]

/-! ### POP -/

/-- What POP leaves in its register and in the stack pointer: the increment comes after the write of the register. -/
theorem exec_pop_registers (h : s.sp.toNat < s.params.memWords) :
    ∃ t, exec (.pop rd y) s = .next t ∧
      (rd ≠ s.params.spIndex → t.readReg rd = s.readCell s.sp.toNat ∧ t.sp = s.sp + 1) ∧
      (rd = s.params.spIndex → t.sp = s.readCell s.sp.toNat + 1) ∧ t.params = s.params := by
  refine ⟨_, exec_pop_of_lt h, fun hne => ?_, fun he => ?_, rfl⟩
  · simp [hne, Ne.symm hne]
  · simp [he]

theorem toNat_add_one (v : Word) : (v + 1).toNat = (v.toNat + 1) % 65536 := BitVec.toNat_add v 1

/-- Settles O25: the register and the stack pointer from `exec_pop_registers`, the rest from the one update POP makes. -/
theorem popLoadsAndIncrementsTheStackPointer : Obligations.PopLoadsAndIncrementsTheStackPointer := by
  intro rd ignored s h
  obtain ⟨t, hexec, hother, hsp, -⟩ := exec_pop_registers (rd := rd) (y := ignored) h
  refine ⟨t, hexec, fun hne => ?_, fun he => by rw [hsp he, toNat_add_one],
    instructionsWriteOnlyTheirRegisters _ _ _ hexec, ?_⟩
  · obtain ⟨hread, hsp⟩ := hother hne
    exact ⟨hread, by rw [hsp, toNat_add_one]⟩
  · obtain ⟨-, rfl⟩ := execPop_next hexec
    exact ⟨⟨rfl, rfl⟩, fun _ _ => rfl, fun _ _ => Iff.rfl, ⟨rfl, rfl, rfl⟩, ⟨rfl, rfl, rfl, rfl, rfl⟩⟩

/-- Settles O27: after the PUSH the cell at the stack pointer holds the pushed word, and the POP undoes the decrement. -/
theorem popAfterPushRestoresTheStackPointer : Obligations.PopAfterPushRestoresTheStackPointer := by
  intro rs rd x y s t hpush
  obtain ⟨hb, rfl⟩ := execPush_next hpush
  let t := (s.setSp s.pushAddress).writeCell s.pushAddress.toNat ((s.setSp s.pushAddress).readReg rs)
  have hsp : t.sp = s.pushAddress := s.sp_setSp _
  have hcell : t.readCell t.sp.toNat = if rs = s.params.spIndex then s.pushAddress else s.readReg rs := by
    rw [hsp, State.readCell_writeCell_self, State.readReg_setSp]
  obtain ⟨u, hexec, hother, hpop, hparams⟩ := exec_pop_registers (s := t) (rd := rd) (y := y) (by rwa [hsp])
  rw [hcell] at hother hpop
  refine ⟨u, hexec, fun hne => ?_, fun hne hrs => ?_, fun hne hrs => ?_, fun he hrs => ?_, fun hpc hne hrs => ?_⟩
  · rw [(hother hne).2, hsp, State.pushAddress, BitVec.sub_add_cancel]
  · rw [(hother hne).1, if_neg hrs]
  · rw [(hother hne).1, if_pos hrs, State.pushAddress]
  · rw [hpop he, if_neg hrs]
  · have hread := (hother hne).1
    rw [if_neg hrs, hpc] at hread
    rw [State.pc, hparams]
    exact hread

end Sys2Proof.Machine
end

section
/-! SUPPORT. The canonical form of memory (10_state.md rule R37; assumption log entry 1), and the proof of O47. -/

namespace Sys2Proof.Machine

variable {m : Memory} {k : Nat} {v : Word} {rest : Memory}

/-- The rest of a canonical memory is canonical, and lists its head's cell no more. -/
theorem Memory.wf_cons (h : Memory.wf ((k, v) :: rest)) :
    v ≠ Memory.unlisted ∧ rest.wf ∧ rest.read k = Memory.unlisted := by
  obtain ⟨hrising, hlisted⟩ := h
  rw [List.pairwise_cons] at hrising
  rw [List.forall_mem_cons] at hlisted
  exact ⟨hlisted.1, ⟨hrising.2, hlisted.2⟩, Memory.read_of_not_listed fun cell hc => (hrising.1 cell hc).ne'⟩

/-- A canonical memory that reads like one with a first cell has a first cell too, and no higher one. -/
theorem Memory.exists_head_le (h : Memory.wf ((k, v) :: rest)) (hm : m.wf)
    (heq : ∀ a, Memory.read ((k, v) :: rest) a = m.read a) : ∃ k' v' rest', m = (k', v') :: rest' ∧ k' ≤ k := by
  have hk : m.read k ≠ Memory.unlisted := by
    rw [← heq k, Memory.read_cons, if_pos rfl]
    exact (Memory.wf_cons h).1
  match m with
  | [] => exact absurd (Memory.read_nil k) hk
  | (k', v') :: rest' => exact ⟨k', v', rest', rfl, Nat.not_lt.1 fun hlt => hk (Memory.read_below hm hlt)⟩

/-- Settles O47: both lists have the same first cell, the lowest that does not read as an unlisted one, and so on down. -/
theorem canonicalMemoriesAreEqualWhenTheyReadAlike : Obligations.CanonicalMemoriesAreEqualWhenTheyReadAlike := by
  intro m
  induction m with
  | nil =>
    intro m' _ hm' heq
    match m' with
    | [] => rfl
    | (k, v) :: rest =>
      obtain ⟨_, _, _, hnil, -⟩ := Memory.exists_head_le hm' Memory.wf_nil fun a => (heq a).symm
      cases hnil
  | cons cell rest ih =>
    obtain ⟨k, v⟩ := cell
    intro m' hm hm' heq
    obtain ⟨k', v', rest', rfl, hle⟩ := Memory.exists_head_le hm hm' heq
    obtain ⟨_, _, _, hhead, hle'⟩ := Memory.exists_head_le hm' hm fun a => (heq a).symm
    cases hhead
    obtain rfl := Nat.le_antisymm hle' hle
    obtain ⟨-, hrest, hread⟩ := Memory.wf_cons hm
    obtain ⟨-, hrest', hread'⟩ := Memory.wf_cons hm'
    have hv : v = v' := by simpa using heq k
    have hreads : ∀ a, Memory.read rest a = Memory.read rest' a := fun a => by
      by_cases ha : k = a
      · rw [← ha, hread, hread']
      · simpa [ha] using heq a
    rw [hv, ih rest' hrest hrest' hreads]

end Sys2Proof.Machine
end

section
/-! SUPPORT. Jumps to the next instruction and to itself (30_encoding.md rule R99; 43_control.md rules R181, R187), and the
proofs of O48 and O49. -/

namespace Sys2Proof.Machine

variable {s : State}

theorem jumpTarget_zero (pc : Word) : jumpTarget pc 0 = pc := by simp [jumpTarget]

/-- The offset -1 leads back over the increment. -/
theorem jumpTarget_add_one_neg_one (pc : Word) : jumpTarget (pc + 1) (-1) = pc := by
  have h := toNat_jumpTarget (pc + 1) (-1)
  have := pc.isLt
  rw [toNat_add_one] at h
  exact BitVec.eq_of_toNat_eq (by omega)

theorem State.writeReg_readReg (s : State) (r : Reg) : s.writeReg r (s.readReg r) = s :=
  State.ext_fields (fun q => by rw [State.readReg_writeReg]; split <;> simp [*])
    rfl rfl rfl rfl rfl rfl rfl rfl rfl rfl rfl rfl

theorem State.jumpBy_zero (s : State) : s.jumpBy 0 = s := by
  rw [State.jumpBy_eq, jumpTarget_zero, State.writeReg_readReg]

/-- A cycle that fetches the word of a JMP jumps from the incremented program counter. -/
theorem step_jmp {v : BitVec 12} (hs : s.status = .running) (hb : s.pc.toNat < s.params.memWords)
    (hd : decode s.params.opcodeMap (s.readCell s.pc.toNat) = .ok (.jmp v)) :
    step s = .next (s.beginCycle.fetch.jumpBy v.toInt) := by
  rw [step_of_executed hs hb hd (pcRefused_of_usedRegs_eq_nil rfl _), exec_jmp]

/-- Settles O49: the zero word is JMP 0, which adds nothing to the incremented program counter. -/
theorem theZeroWordOnlyAdvancesThePc : Obligations.TheZeroWordOnlyAdvancesThePc := by
  intro s hs hb hw hmap
  have hd : decode s.params.opcodeMap (s.readCell s.pc.toNat) = .ok (.jmp 0) := by rw [hw, hmap]; decide
  have hstep : step s = .next s.beginCycle.fetch := (step_jmp hs hb hd).trans (congrArg _ (State.jumpBy_zero _))
  obtain ⟨hregs, hflags, hmem, hmarked, hconsole⟩ := s.fetch_frame
  exact ⟨_, hstep, s.fetch_pc, hregs, hflags, keepsMemory_of_mem_eq hmem, keepsMarks_of_marked_eq hmarked, hconsole,
    s.fetch_status.trans hs, s.fetch_params⟩

/-- A jump by -1 undoes the increment, so the cycle leaves its records only. -/
theorem State.fetch_jumpBy_neg_one (s : State) :
    s.beginCycle.fetch.jumpBy (-1) =
      { s with ir := s.readCell s.pc.toNat, cycles := s.cycles + 1, pauses := s.beginCycle.pauses } := by
  have hpc : jumpTarget s.beginCycle.fetch.pc (-1) = s.pc := by rw [State.fetch_pc, jumpTarget_add_one_neg_one]
  obtain ⟨hregs, ⟨hz, hc⟩, hmem, hmarked, htrace, hanswers, hdraws⟩ := s.fetch_frame
  refine State.ext_fields (fun r => ?_) hz hc hmem hmarked htrace s.fetch_ir s.fetch_status rfl hanswers hdraws
    s.fetch_cycles s.fetch_params
  rw [State.jumpBy, hpc, State.setPc_eq, State.readReg_writeReg, State.fetch_params]
  by_cases hr : r = s.params.pcIndex
  · rw [if_pos hr, hr]; rfl
  · rw [if_neg hr]
    exact hregs r (mt List.mem_singleton.1 hr)

/-- A run of `JMP -1` of any length, by induction on the number of steps: each one meets the hypotheses again. -/
theorem run_jumpToItself (k : Nat) : ∀ s : State, s.status = .running → s.pc.toNat < s.params.memWords →
    decode s.params.opcodeMap (s.readCell s.pc.toNat) = .ok (.jmp 0xFFF) →
    ∃ ir pauses, Host.Core.run Sys2Proof.core k s =
      .next { s with ir := ir, cycles := s.cycles + k, pauses := pauses } := by
  induction k with
  | zero => exact fun s _ _ _ => ⟨s.ir, s.pauses, rfl⟩
  | succ k ih =>
    intro s hs hb hd
    have hstep := (step_jmp hs hb hd).trans (congrArg _ s.fetch_jumpBy_neg_one)
    obtain ⟨ir, pauses, hrun⟩ := ih
      { s with ir := s.readCell s.pc.toNat, cycles := s.cycles + 1, pauses := s.beginCycle.pauses } hs hb hd
    refine ⟨ir, pauses, (run_succ_of_next k hstep).trans (hrun.trans ?_)⟩
    simp only [Nat.add_assoc, Nat.add_comm 1 k]

/-- Settles O48: 0xFFF0 is JMP -1 under the default map. -/
theorem jumpToItselfRunsForEver : Obligations.JumpToItselfRunsForEver := by
  intro s hs hb hw hmap k
  have hd : decode s.params.opcodeMap (s.readCell s.pc.toNat) = .ok (.jmp 0xFFF) := by rw [hw, hmap]; decide
  obtain ⟨ir, pauses, hrun⟩ := run_jumpToItself k s hs hb hd
  exact ⟨_, hrun, hs, OnlyRegs.refl [] _⟩

end Sys2Proof.Machine
end

section
/-! SUPPORT. Reset and launch (10_state.md rule R38; 70_reset_and_hazards.md rules R280 to R282), and the proofs of O50 and
O51. -/

namespace Sys2Proof.Machine

variable {p : Params} {image : Image} {answers : List Word}

/-! ### Reset -/

/-- The registers after reset: the program counter, then the stack pointer, then the initial general registers. -/
theorem State.readReg_resetWith (p : Params) (r : Reg) :
    (State.resetWith p).readReg r =
      if r = p.pcIndex then 0 else if r = p.spIndex then p.spReset else p.initGpr[r] := by
  simp only [State.resetWith, State.readReg, Fin.getElem_fin, Vector.getElem_set, Fin.ext_iff, eq_comm]

/-- Settles O50: the registers for any parameters, and the table's values for the defaults. -/
theorem resetGivesTheValuesOfTheTable : Obligations.ResetGivesTheValuesOfTheTable := by
  refine ⟨fun p hne => ⟨?_, ?_, fun r hsp hpc => ?_, rfl, rfl, fun _ => rfl, rfl, rfl⟩, ?_⟩
  · exact (State.readReg_resetWith p _).trans (if_pos rfl)
  · exact (State.readReg_resetWith p _).trans ((if_neg hne).trans (if_pos rfl))
  · rw [State.readReg_resetWith, if_neg hpc, if_neg hsp]
  · decide

/-! ### The launch image (rule R282) -/

theorem imageValid_iff :
    imageValid p image = true ↔ (∀ cell ∈ image, cell.1 < p.memWords) ∧ (image.map (·.1)).Nodup := by
  simp [imageValid]

/-- Writing an image over a memory leaves every cell it does not list alone. -/
theorem read_foldl_write_of_not_listed {a : Nat} (h : ∀ cell ∈ image, cell.1 ≠ a) (m : Memory) :
    (image.foldl (fun m cell => m.write cell.1 cell.2) m).read a = m.read a := by
  induction image generalizing m with
  | nil => rfl
  | cons cell rest ih =>
    rw [List.forall_mem_cons] at h
    rw [List.foldl_cons, ih h.2, Memory.read_write, if_neg h.1.symm]

/-- Writing an image without an address twice leaves in every cell it lists the word it lists: no later write undoes it. -/
theorem read_foldl_write_of_mem (hnodup : (image.map (·.1)).Nodup) {cell : Nat × Word} (hc : cell ∈ image) (m : Memory) :
    (image.foldl (fun m cell => m.write cell.1 cell.2) m).read cell.1 = cell.2 := by
  induction image generalizing m with
  | nil => cases hc
  | cons head rest ih =>
    rw [List.map_cons, List.nodup_cons] at hnodup
    obtain ⟨hhead, hrest⟩ := hnodup
    rw [List.foldl_cons]
    rcases List.mem_cons.1 hc with rfl | hc
    · have hother : ∀ d ∈ rest, d.1 ≠ cell.1 := fun d hd he => hhead (List.mem_map.2 ⟨d, hd, he⟩)
      rw [read_foldl_write_of_not_listed hother, Memory.read_write, if_pos rfl]
    · exact ih hrest hc _

/-- The memory of an image below N is canonical and below N, as every write keeps it so. -/
theorem imageMemory_wf {n : Nat} (h : ∀ cell ∈ image, cell.1 < n) :
    (imageMemory image).wf ∧ ∀ cell ∈ imageMemory image, cell.1 < n :=
  image.foldlRecOn (motive := fun m : Memory => m.wf ∧ ∀ cell ∈ m, cell.1 < n) _
    ⟨Memory.wf_nil, fun _ hc => absurd hc List.not_mem_nil⟩
    fun _ ⟨hm, hbelow⟩ cell hc => ⟨Memory.wf_write hm _ _, Memory.below_write hbelow (h cell hc) _⟩

/-! ### Launch -/

theorem launch_of_valid (hp : p.wf = true) (hi : imageValid p image = true) :
    launch p image answers = .next { State.resetWith p with mem := imageMemory image, answers := answers } := by
  simp only [launch, hp, hi, Bool.true_eq_false, if_false]

theorem launch_of_invalid (hp : p.wf = true) (hi : imageValid p image = false) :
    launch p image answers = .refused .invalidImage := by
  simp only [launch, hp, hi, Bool.true_eq_false, if_false, if_true]

/-- Settles O51: the image is valid exactly when the refusing clause does not hold, and its memory reads as it lists. -/
theorem launchPlacesTheImageOrRefusesIt : Obligations.LaunchPlacesTheImageOrRefusesIt := by
  intro p image answers hp
  refine ⟨fun hbelow hnodup => ?_, fun hbad => ?_⟩
  · obtain ⟨hmem, hcells⟩ := imageMemory_wf hbelow
    exact ⟨_, launch_of_valid hp (imageValid_iff.2 ⟨hbelow, hnodup⟩), fun _ hc => read_foldl_write_of_mem hnodup hc [],
      fun _ ha => read_foldl_write_of_not_listed ha [], rfl, rfl,
      hmem, hcells, .nil, fun _ ha => absurd ha List.not_mem_nil, hp⟩
  · refine launch_of_invalid hp (Bool.eq_false_iff.2 fun hi => ?_)
    obtain ⟨hbelow, hnodup⟩ := imageValid_iff.1 hi
    rcases hbad with ⟨cell, hc, hge⟩ | hdup
    · exact Nat.not_lt.2 hge (hbelow cell hc)
    · exact hdup hnodup

end Sys2Proof.Machine
end
